-- ==== Sys2Proof/Word.lean ====
section
/-! DEFINITION. The word types of the CORE (spec/00_scope.md R7, R9, R10). -/

namespace Sys2Proof

/-- A memory byte, a register value or an instruction byte: 8 bits, unsigned (R7). -/
abbrev Byte := BitVec 8

/-- A register index: 3 bits (R7). -/
abbrev RegIdx := BitVec 3

/-- `trunc8(v) = v mod 256` (R10). -/
abbrev trunc8 (n : Nat) : Byte := BitVec.ofNat 8 n

/-- `v mod 256` of an integer that may be negative, in `[0, 256)` (R10). -/
abbrev truncInt8 (n : Int) : Byte := BitVec.ofInt 8 n

end Sys2Proof
end

