-- ==== Sys2Proof/Config.lean ====
section
/-! DEFINITION. What an instance of the CORE takes at construction (spec/00_scope.md R8), and the shape of the
opcode table `OPC`. This hardware's configuration stands in Decode.lean, beside the values of `OPC`. -/

namespace Sys2Proof

/-- What a memory byte holds until something writes it: Memory is "zero-initialized" (R33, R40). -/
abbrev Config.blankByte : Byte := 0

/-- `OPC`: the opcode byte of each of the thirteen mnemonics (R8, R66). -/
structure OpcodeTable where
  nop : Byte
  hlt : Byte
  push : Byte
  pop : Byte
  prn : Byte
  ldi : Byte
  add : Byte
  sub : Byte
  mul : Byte
  div : Byte
  mod : Byte
  inc : Byte
  dec : Byte
  deriving DecidableEq, Repr

/-- The configuration of one machine instance (R8, R170): every parameter of R8's table but the representation of pc,
which is the natural number `State.pc`. `N >= 1` is carried by the configuration itself. -/
structure Config where
  /-- `N`: the memory size in bytes. -/
  memSize : Nat
  /-- `N` must satisfy `N >= 1` (R8). -/
  memSize_pos : 1 ≤ memSize
  /-- `SP_INIT`: what register 7 holds at construction. -/
  spInit : Byte
  /-- `INIT_REGS`: what registers 0 to 6 hold at construction. -/
  initRegs : Vector Byte 7
  /-- `OPC`: the opcode byte of each mnemonic. A table for this ISA keeps the source's constraints of R66, the check
  `OpcodeTable.meetsSource` of Decode.lean (D1). -/
  opc : OpcodeTable
  deriving DecidableEq, Repr

/-- The bytes of the direct-effect instructions (R66, R130). -/
def OpcodeTable.directBytes (t : OpcodeTable) : List Byte :=
  [t.nop, t.hlt, t.push, t.pop, t.prn, t.ldi]

/-- The bytes of the ALU instructions (R66, R100). -/
def OpcodeTable.aluBytes (t : OpcodeTable) : List Byte :=
  [t.add, t.sub, t.mul, t.div, t.mod, t.inc, t.dec]

end Sys2Proof
end

