-- ==== Sys2Proof/Syntax.lean ====
section
/-! DEFINITION. The instructions of the CORE: one constructor per row of spec/opcode_table.json. -/

namespace Sys2Proof

/-- An instruction with its operands as the decoder pulls them out. A register operand is an index already masked to
3 bits (spec/30_encoding.md R63); the immediate of LDI is its byte as it stands (R64). -/
inductive Instr where
  /-- `NOP` (R131). -/
  | nop
  /-- `HLT` (R132). -/
  | hlt
  /-- `PUSH Rr` (R123). -/
  | push (r : RegIdx)
  /-- `POP Rr` (R124). -/
  | pop (r : RegIdx)
  /-- `PRN Rr` (R133). -/
  | prn (r : RegIdx)
  /-- `LDI Rr,imm8` (R134). -/
  | ldi (r : RegIdx) (imm : Byte)
  /-- `ADD Ra,Rb` (R101). -/
  | add (a b : RegIdx)
  /-- `SUB Ra,Rb` (R102). -/
  | sub (a b : RegIdx)
  /-- `MUL Ra,Rb` (R103). -/
  | mul (a b : RegIdx)
  /-- `DIV Ra,Rb` (R104). -/
  | div (a b : RegIdx)
  /-- `MOD Ra,Rb` (R105). -/
  | mod (a b : RegIdx)
  /-- `INC Ra` (R106); its second operand byte is read and ignored. -/
  | inc (a : RegIdx)
  /-- `DEC Ra` (R107); its second operand byte is read and ignored. -/
  | dec (a : RegIdx)
  /-- A byte of the PC-mutating family, `AA01DDDD` (R140): reserved, executed as a no-op. -/
  | pcReserved (aa : BitVec 2) (dddd : BitVec 4)
  /-- An ALU-family byte that is no ALU instruction (R108), with the two register operands the Loop read. -/
  | unsupportedAlu (op : Byte) (a b : RegIdx)
  /-- A direct-effect byte that is no instruction (R135); no operand is read. -/
  | unsupportedDirect (op : Byte)
  deriving DecidableEq, Repr

end Sys2Proof
end

