-- ==== Sys2Proof/WellFormed.lean ====
section
/-! DEFINITION. Which terms of Instr stand for an instruction of a given opcode table. Only the two unsupported classes
can be ill-formed: their byte must lie in the class (spec/30_encoding.md R65, R68). -/

namespace Sys2Proof

/-- The byte is in the ALU family and is no ALU instruction (R68, R108). -/
def OpcodeTable.isUnsupportedAlu (t : OpcodeTable) (op : Byte) : Bool :=
  op.getLsbD 5 && !t.aluBytes.contains op

/-- The byte is in the direct-effect family and is no instruction (R68, R135). -/
def OpcodeTable.isUnsupportedDirect (t : OpcodeTable) (op : Byte) : Bool :=
  !op.getLsbD 5 && !op.getLsbD 4 && !t.directBytes.contains op

/-- An instruction that some opcode byte of the table decodes to. -/
def Instr.wf (t : OpcodeTable) (i : Instr) : Bool :=
  match i with
  | .nop => true
  | .hlt => true
  | .push _ => true
  | .pop _ => true
  | .prn _ => true
  | .ldi _ _ => true
  | .add _ _ => true
  | .sub _ _ => true
  | .mul _ _ => true
  | .div _ _ => true
  | .mod _ _ => true
  | .inc _ => true
  | .dec _ => true
  | .pcReserved _ _ => true
  | .unsupportedAlu op _ _ => t.isUnsupportedAlu op
  | .unsupportedDirect op => t.isUnsupportedDirect op

end Sys2Proof
end

