-- ==== Sys2Proof/Decode.lean ====
section
/-! DEFINITION. The opcode table and the configuration of this hardware, the fields of an instruction byte, the decoder and the encoder
(spec/30_encoding.md R60 to R72; spec/40_loop.md R82 to R85). -/

namespace Sys2Proof

/-- The byte of each mnemonic (R66).
PRESUMED (log entry 1, unsafe): the spec takes these values from general knowledge of the LS-8 machine (D1). -/
def opcodeTable : OpcodeTable where
  nop := 0x00
  hlt := 0x01
  push := 0x45
  pop := 0x46
  prn := 0x47
  ldi := 0x82
  add := 0xA0
  sub := 0xA1
  mul := 0xA2
  div := 0xA3
  mod := 0xA4
  inc := 0x65
  dec := 0x66

/-- This hardware: `N = 256`, `SP_INIT = 0xF4` and the opcode table of R66 (R8, D8).
DESIGN CHOICE (log entry 2, unsafe): `INIT_REGS` is OPEN in the spec (D4) and is zero here. -/
def Config.hardware : Config where
  memSize := 256
  memSize_pos := by decide
  spInit := 0xF4
  initRegs := Vector.replicate 7 0
  opc := opcodeTable

/-- `AA`, bits 7:6: how many operand bytes follow the opcode (R60, R61, R82). -/
def operandCount (op : Byte) : Nat := (op.extractLsb' 6 2).toNat

/-- `reg(b) = b[2:0]`: the register an operand byte names (R22, R63). -/
def regOf (b : Byte) : RegIdx := b.extractLsb' 0 3

/-- The operand byte that names a register, with its ignored bits clear (R63). -/
def regByte (r : RegIdx) : Byte := r.setWidth 8

/-- The three families of opcode bytes (R65). -/
inductive Family where
  | alu
  | pcMutating
  | direct
  deriving DecidableEq, Repr

/-- Bit 5 is tested first, then bit 4 (R65, R83). -/
def familyOf (op : Byte) : Family :=
  if op.getLsbD 5 then .alu else if op.getLsbD 4 then .pcMutating else .direct

/-- The byte `AA01DDDD` of the PC-mutating family (R60, R140). -/
def pcByte (aa : BitVec 2) (dddd : BitVec 4) : Byte := aa ++ 0b01#2 ++ dddd

/-- What the source itself fixes of each opcode byte (R66, column "source constraint"), with the bytes pairwise
different. The source does not fix `AA` of NOP, HLT, INC and DEC. -/
def OpcodeTable.meetsSource (t : OpcodeTable) : Bool :=
  decide (t.directBytes ++ t.aluBytes).Nodup
    && t.directBytes.all (fun b => familyOf b == .direct)
    && t.aluBytes.all (fun b => familyOf b == .alu)
    && [t.push, t.pop, t.prn].all (fun b => operandCount b == 1)
    && [t.ldi, t.add, t.sub, t.mul, t.div, t.mod].all (fun b => operandCount b == 2)

/-- The ALU-family instruction of a byte, by exact match of the whole byte (R67, R100). -/
def selectAlu (t : OpcodeTable) (op : Byte) (a b : RegIdx) : Instr :=
  if op = t.add then .add a b
  else if op = t.sub then .sub a b
  else if op = t.mul then .mul a b
  else if op = t.div then .div a b
  else if op = t.mod then .mod a b
  else if op = t.inc then .inc a
  else if op = t.dec then .dec a
  else .unsupportedAlu op a b

/-- An instruction with one register operand, from the byte after the opcode (R62, format F1). -/
def withRegister {ε : Type} (operand : Nat → Except ε Byte) (mk : RegIdx → Instr) : Except ε Instr :=
  match operand 1 with
  | .error e => .error e
  | .ok b => .ok (mk (regOf b))

/-- An instruction with two operand bytes, read in this order (R45, R84, R85). -/
def withTwoBytes {ε : Type} (operand : Nat → Except ε Byte) (mk : Byte → Byte → Instr) : Except ε Instr :=
  match operand 1 with
  | .error e => .error e
  | .ok b1 =>
    match operand 2 with
    | .error e => .error e
    | .ok b2 => .ok (mk b1 b2)

/-- The instruction of an opcode byte, where `operand k` reads the instruction's byte `k` and may fail. It reads the
operand bytes the spec says the Loop reads, in the spec's order, and no other (R84, R85, R140): both for every ALU-family
byte, none for the PC-mutating family, and for the direct-effect family what the matched instruction names. -/
def decodeOperands {ε : Type} (t : OpcodeTable) (op : Byte) (operand : Nat → Except ε Byte) : Except ε Instr :=
  match familyOf op with
  | .alu => withTwoBytes operand (fun ea eb => selectAlu t op (regOf ea) (regOf eb))
  | .pcMutating => .ok (.pcReserved (op.extractLsb' 6 2) (op.extractLsb' 0 4))
  | .direct =>
    if op = t.nop then .ok .nop
    else if op = t.hlt then .ok .hlt
    else if op = t.push then withRegister operand .push
    else if op = t.pop then withRegister operand .pop
    else if op = t.prn then withRegister operand .prn
    else if op = t.ldi then withTwoBytes operand (fun r v => .ldi (regOf r) v)
    else .ok (.unsupportedDirect op)

/-- Why a list of bytes is no whole instruction. No opcode byte is rejected: every byte decodes (R68). -/
inductive DecodeRejection where
  /-- The list is empty. -/
  | noOpcode
  /-- The list ends before byte `k`, which the decoder reads. -/
  | missingByte (k : Nat)
  deriving DecidableEq, Repr

/-- Byte `k` of a list, or its absence by name. -/
def listByte (bytes : List Byte) (k : Nat) : Except DecodeRejection Byte :=
  match bytes[k]? with
  | some b => .ok b
  | none => .error (.missingByte k)

/-- The instruction a list of bytes begins with, under the opcode table `t`. -/
def decodeWith (t : OpcodeTable) (bytes : List Byte) : Except DecodeRejection Instr :=
  match bytes with
  | [] => .error .noOpcode
  | op :: rest => decodeOperands t op (listByte (op :: rest))

/-- The instruction a list of bytes begins with. -/
def decode (bytes : List Byte) : Except DecodeRejection Instr := decodeWith opcodeTable bytes

/-- The opcode byte of an instruction (R66, R140, R108, R135). -/
def Instr.opcode (t : OpcodeTable) (i : Instr) : Byte :=
  match i with
  | .nop => t.nop
  | .hlt => t.hlt
  | .push _ => t.push
  | .pop _ => t.pop
  | .prn _ => t.prn
  | .ldi _ _ => t.ldi
  | .add _ _ => t.add
  | .sub _ _ => t.sub
  | .mul _ _ => t.mul
  | .div _ _ => t.div
  | .mod _ _ => t.mod
  | .inc _ => t.inc
  | .dec _ => t.dec
  | .pcReserved aa dddd => pcByte aa dddd
  | .unsupportedAlu op _ _ => op
  | .unsupportedDirect op => op

/-- The bytes of an instruction in ascending address order (R45, R61, R62). The bytes a PC-mutating byte skips are
written as zeros; an unsupported ALU-family byte stands with the two bytes the Loop reads after it. -/
def encodeWith (t : OpcodeTable) (i : Instr) : List Byte :=
  match i with
  | .nop => [t.nop]
  | .hlt => [t.hlt]
  | .push r => [t.push, regByte r]
  | .pop r => [t.pop, regByte r]
  | .prn r => [t.prn, regByte r]
  | .ldi r imm => [t.ldi, regByte r, imm]
  | .add a b => [t.add, regByte a, regByte b]
  | .sub a b => [t.sub, regByte a, regByte b]
  | .mul a b => [t.mul, regByte a, regByte b]
  | .div a b => [t.div, regByte a, regByte b]
  | .mod a b => [t.mod, regByte a, regByte b]
  | .inc a => [t.inc, regByte a]
  | .dec a => [t.dec, regByte a]
  | .pcReserved aa dddd => pcByte aa dddd :: List.replicate aa.toNat 0
  | .unsupportedAlu op a b => [op, regByte a, regByte b]
  | .unsupportedDirect op => [op]

/-- The bytes of an instruction of this hardware. -/
def encode (i : Instr) : List Byte := encodeWith opcodeTable i

/-- The four bytes, the longest instruction, of a table word: bit 0 of `w` is bit 0 of the first byte, the second byte is
bits 15..8, and the bits at and above `nbits` are zero. -/
def tableBytes (nbits w : Nat) : List Byte :=
  let v := w % 2 ^ nbits
  [trunc8 v, trunc8 (v / 256), trunc8 (v / 65536), trunc8 (v / 16777216)]

/-- The instruction the decoder reads from a word numbered as spec/opcode_table.json numbers it. -/
def decodeTableWord (nbits w : Nat) : Option Instr :=
  match decode (tableBytes nbits w) with
  | .ok i => some i
  | .error _ => none

/-- A register as the assembler writes it: `R` and its index (R71). -/
def asmReg (r : RegIdx) : String := "R" ++ toString r.toNat

/-- The assembler syntax of an instruction (R71); the reserved and unsupported bytes have none. -/
def Instr.asm (i : Instr) : Option String :=
  match i with
  | .nop => some "NOP"
  | .hlt => some "HLT"
  | .push r => some ("PUSH " ++ asmReg r)
  | .pop r => some ("POP " ++ asmReg r)
  | .prn r => some ("PRN " ++ asmReg r)
  | .ldi r imm => some ("LDI " ++ asmReg r ++ "," ++ toString imm.toNat)
  | .add a b => some ("ADD " ++ asmReg a ++ "," ++ asmReg b)
  | .sub a b => some ("SUB " ++ asmReg a ++ "," ++ asmReg b)
  | .mul a b => some ("MUL " ++ asmReg a ++ "," ++ asmReg b)
  | .div a b => some ("DIV " ++ asmReg a ++ "," ++ asmReg b)
  | .mod a b => some ("MOD " ++ asmReg a ++ "," ++ asmReg b)
  | .inc a => some ("INC " ++ asmReg a)
  | .dec a => some ("DEC " ++ asmReg a)
  | .pcReserved _ _ => none
  | .unsupportedAlu _ _ _ => none
  | .unsupportedDirect _ => none

end Sys2Proof
end

