-- ==== Sys2Proof/Machine/State.lean ====
section
/-! DEFINITION. The state of one machine instance as plain data (spec/10_state.md R20), the faults, and the state after
construction and after reset (R33). -/

namespace Sys2Proof.Machine

/-- The one memory of a machine instance (R40): an array of `size` bytes. `cells` lists the bytes that differ from the
blank byte, addresses strictly rising; an address below `size` that is not listed holds the blank byte (R33). -/
structure Memory where
  /-- `N` (R8): fixed at construction. -/
  size : Nat
  cells : List Host.Cell
  deriving DecidableEq, Repr

/-- The error kinds with the info each records (spec/60_exceptions.md R151, D19 for their order).
A step raises `outOfBounds`, `divisionByZero`, `unsupportedAluOp` and `unsupportedOpcode` only; the other two belong to
host operations. -/
inductive ErrorKind where
  /-- A memory access at `addr`, which is `>= N` (R42): fetch, operand read, PUSH, POP, the host's read and write. -/
  | outOfBounds (addr : Nat)
  /-- `load_program` would overflow Memory (R172). -/
  | programTooLarge
  /-- DIV or MOD with a zero divisor (R104, R105). -/
  | divisionByZero
  /-- An ALU-family byte that is no ALU instruction (R108). -/
  | unsupportedAluOp (code : Byte)
  /-- A direct-effect byte that is no instruction, and its address (R135). -/
  | unsupportedOpcode (code : Byte) (address : Nat)
  /-- No program was supplied to load (R174). -/
  | missingProgramSource
  deriving DecidableEq, Repr

/-- What a fault raised by a step records (R152). -/
structure FaultRecord where
  /-- The kind with its info. -/
  kind : ErrorKind
  /-- The address of the instruction whose step raised the fault. -/
  pc : Nat
  /-- The raw opcode byte; for a fault at fetch the previous `ir` (R81, D5; not meaningful, R152). -/
  ir : Byte
  deriving DecidableEq, Repr

/-- The Loop's state (R28). -/
inductive RunStatus where
  | running
  | halted
  | faulted (record : FaultRecord)
  deriving DecidableEq, Repr

/-- The state vector `(mem, x, pc, ir, status, out)` (R20). -/
structure State where
  /-- Memory (R40). -/
  mem : Memory
  /-- The Register File R0 to R7; register 7 is the stack pointer (R21, R24). -/
  x : Vector Byte 8
  /-- The program counter: a natural number that never wraps (R26, D3). -/
  pc : Nat
  /-- The instruction register (R27). -/
  ir : Byte
  /-- The Loop's state (R28). -/
  status : RunStatus
  /-- The values PRN has emitted in this run, oldest first (R29). -/
  out : List Byte
  deriving DecidableEq, Repr

/-- What stops an operation with a fault. A fault that a step raises is no such stop: the spec gives its effect on the
state, and the step answers that next state (log entry 4). -/
inductive Fault where
  /-- Raised by `step` when the status is HALTED or FAULTED: no step is defined there (R28, R80). Safe: the machine
  stops where the spec defines no step (log entry 4). -/
  | notRunning
  /-- Raised by the host operations outside a run: `outOfBounds` by hostRead and hostWrite (R42), `programTooLarge` by
  loadProgram (R172), `missingProgramSource` by loadSource (R174). Safe: the error the spec gives the operation. -/
  | hostError (kind : ErrorKind)
  deriving DecidableEq, Repr

/-- Why the model gives an operation no meaning. -/
inductive Refusal where
  /-- Raised by an arm of `exec` for an instruction with no meaning yet; no arm raises it. Safe. -/
  | notModelled (mnemonic : String)
  /-- Raised by the host operations while a run is active: the spec has no such move (R177, IB15). Safe. -/
  | runActive
  /-- Raised by loadProgram and loadSource for a sequence with a value outside `[0, 255]`: it is not accepted (R173,
  IB13). Safe. -/
  | notByteSequence
  deriving DecidableEq, Repr

/-- The instance that construction makes (spec/70_reset_and_hazards.md R170). -/
def State.construct (c : Config) : State where
  mem := { size := c.memSize, cells := [] }
  x := c.initRegs.push c.spInit
  pc := 0
  ir := 0x00
  status := .halted
  out := []

/-- A freshly constructed instance at the start of a run, the column "at run start" of R33 (R178). -/
def State.firstRunStart (c : Config) : State :=
  { State.construct c with pc := 0, ir := 0x00, status := .running, out := [] }

/-- The freshly constructed instance of this hardware. -/
def State.constructed : State := State.construct Config.hardware

/-- The machine right after reset: a freshly constructed instance at the start of a run, the column "at run start" of
R33 (R178). DESIGN CHOICE (log entry 3): construction alone leaves the status HALTED, from which no step is defined. -/
def State.reset : State where
  mem := State.constructed.mem
  x := State.constructed.x
  pc := 0
  ir := 0x00
  status := .running
  out := []

end Sys2Proof.Machine
end

