-- ==== Sys2Proof/Machine/Ops.lean ====
section
/-! DEFINITION. The operations every meaning is written over: memory, registers, the output sequence, the advance of the
program counter, and taking a fault. There is no return from a fault: no handler runs (spec/60_exceptions.md R156, R158);
the host's `startRun` begins a new run. -/

namespace Sys2Proof.Machine

/-- The byte a list of cells in canonical form holds at an address. -/
def cellsRead (cells : List Host.Cell) (addr : Nat) : Byte :=
  match cells with
  | [] => Config.blankByte
  | (a, v) :: rest => if addr < a then Config.blankByte else if addr = a then v else cellsRead rest addr

/-- The cell of a byte in canonical form: no cell for the blank byte. -/
def cellOf (addr : Nat) (v : Byte) : List Host.Cell :=
  if v = Config.blankByte then [] else [(addr, v)]

/-- The list of cells with the byte `v` at `addr`. -/
def cellsWrite (cells : List Host.Cell) (addr : Nat) (v : Byte) : List Host.Cell :=
  match cells with
  | [] => cellOf addr v
  | (a, w) :: rest =>
    if addr < a then cellOf addr v ++ (a, w) :: rest
    else if addr = a then cellOf addr v ++ rest
    else (a, w) :: cellsWrite rest addr v

/-- Canonical form of a list of cells: addresses strictly rising, at least `lo` and below `size`, no blank byte. -/
def cellsWf (size lo : Nat) (cells : List Host.Cell) : Bool :=
  match cells with
  | [] => true
  | (a, v) :: rest =>
    decide (lo ≤ a) && decide (a < size) && decide (v ≠ Config.blankByte) && cellsWf size (a + 1) rest

/-- The memory is in canonical form. -/
def Memory.wf (m : Memory) : Bool := cellsWf m.size 0 m.cells

/-- `MemRead(addr, 1)` (spec/20_memory.md R42): the byte, or nothing where the access raises OutOfBounds. -/
def Memory.read? (m : Memory) (addr : Nat) : Option Byte :=
  if addr < m.size then some (cellsRead m.cells addr) else none

/-- `MemWrite(addr, 1, v)` (R42): the memory after it, or nothing where the access raises OutOfBounds. -/
def Memory.write? (m : Memory) (addr : Nat) (v : Byte) : Option Memory :=
  if addr < m.size then some { m with cells := cellsWrite m.cells addr v } else none

/-- `x[r]` (spec/00_scope.md R11, spec/10_state.md R21). -/
def State.getReg (s : State) (r : RegIdx) : Byte := s.x[r.toNat]'r.isLt

/-- `x[r] <- v` (R11, R23). -/
def State.setReg (s : State) (r : RegIdx) (v : Byte) : State := { s with x := s.x.set r.toNat v r.isLt }

/-- The stack pointer, register 7 (R24). -/
def spReg : RegIdx := 7

/-- `Emit(v)` (R11, spec/60_exceptions.md R160): appends to the output sequence. -/
def State.emit (s : State) (v : Byte) : State := { s with out := s.out ++ [v] }

/-- `pc <- pc + 1 + ir[7:6]`, without wrap (spec/40_loop.md R87). -/
def State.advance (s : State) : State := { s with pc := s.pc + 1 + operandCount s.ir }

/-- `raise K(info)` (R11, R150, R152): the status becomes FAULTED with the kind, the pc of the instruction and its opcode
byte. Nothing else changes, and what the step wrote before stays (R153). -/
def State.raise (s : State) (k : ErrorKind) : State :=
  { s with status := .faulted { kind := k, pc := s.pc, ir := s.ir } }

/-- The end of an instruction that raises a fault: the step ends in the faulted state, pc not advanced (R89, R150). -/
def takeFault (k : ErrorKind) (s : State) : Host.Outcome State Fault Refusal := .next (s.raise k)

/-- The end of an instruction that neither halts nor faults: the program counter advances (R87). -/
def complete (s : State) : Host.Outcome State Fault Refusal := .next s.advance

/-- The codes 1 to 6 of the error kinds (R151, D19). -/
def ErrorKind.code (k : ErrorKind) : Nat :=
  match k with
  | .outOfBounds _ => 1
  | .programTooLarge => 2
  | .divisionByZero => 3
  | .unsupportedAluOp _ => 4
  | .unsupportedOpcode _ _ => 5
  | .missingProgramSource => 6

end Sys2Proof.Machine
end

