-- ==== Sys2Proof/Machine/Alu.lean ====
section
/-! DEFINITION. The ALU family (spec/41_alu.md). -/

namespace Sys2Proof.Machine

/-- The operations `AluApply` selects between (R100). -/
inductive AluOp where
  | add
  | sub
  | mul
  | div
  | mod
  | inc
  | dec
  | unsupported (code : Byte)
  deriving DecidableEq, Repr

/-- The result of an operation on the values of its two registers, computed exactly and reduced mod 256 at the end
(R100 to R109), or the fault it raises. INC and DEC do not use the second value. -/
def aluResult (op : AluOp) (u v : Byte) : Except ErrorKind Byte :=
  match op with
  | .add => .ok (trunc8 (u.toNat + v.toNat))
  | .sub => .ok (truncInt8 ((u.toNat : Int) - v.toNat))
  | .mul => .ok (trunc8 (u.toNat * v.toNat))
  | .div => if v = 0 then .error .divisionByZero else .ok (trunc8 (u.toNat / v.toNat))
  | .mod => if v = 0 then .error .divisionByZero else .ok (trunc8 (u.toNat % v.toNat))
  | .inc => .ok (trunc8 (u.toNat + 1))
  | .dec => .ok (truncInt8 ((u.toNat : Int) - 1))
  | .unsupported code => .error (.unsupportedAluOp code)

/-- `AluApply(op, a, b)` (R100): reads both registers, then writes `x[a]` only, and only when it does not raise. -/
def aluApply (op : AluOp) (a b : RegIdx) (s : State) : Except ErrorKind State :=
  match aluResult op (s.getReg a) (s.getReg b) with
  | .ok v => .ok (s.setReg a v)
  | .error k => .error k

/-- An instruction of the ALU family: `AluApply`, then the advance or the fault (R80, R87). -/
def execAlu (op : AluOp) (a b : RegIdx) (s : State) : Host.Outcome State Fault Refusal :=
  match aluApply op a b s with
  | .ok s' => complete s'
  | .error k => takeFault k s

/-- ADD (R101). -/
def execAdd (a b : RegIdx) (s : State) : Host.Outcome State Fault Refusal := execAlu .add a b s

/-- SUB (R102). -/
def execSub (a b : RegIdx) (s : State) : Host.Outcome State Fault Refusal := execAlu .sub a b s

/-- MUL (R103). -/
def execMul (a b : RegIdx) (s : State) : Host.Outcome State Fault Refusal := execAlu .mul a b s

/-- DIV (R104). -/
def execDiv (a b : RegIdx) (s : State) : Host.Outcome State Fault Refusal := execAlu .div a b s

/-- MOD (R105). -/
def execMod (a b : RegIdx) (s : State) : Host.Outcome State Fault Refusal := execAlu .mod a b s

/-- INC (R106): the second register index is unused. -/
def execInc (a : RegIdx) (s : State) : Host.Outcome State Fault Refusal := execAlu .inc a a s

/-- DEC (R107): the second register index is unused. -/
def execDec (a : RegIdx) (s : State) : Host.Outcome State Fault Refusal := execAlu .dec a a s

/-- An unsupported ALU-family byte (R108): raises UnsupportedAluOp with the whole opcode byte. -/
def execUnsupportedAlu (op : Byte) (a b : RegIdx) (s : State) : Host.Outcome State Fault Refusal :=
  execAlu (.unsupported op) a b s

end Sys2Proof.Machine
end

