-- ==== Sys2Proof/Machine/Direct.lean ====
section
/-! DEFINITION. The direct-effect family but for PUSH and POP (spec/43_direct_effect.md). -/

namespace Sys2Proof.Machine

/-- NOP (R131): no effect. -/
def execNop (s : State) : Host.Outcome State Fault Refusal := complete s

/-- HLT (R132): the status becomes HALTED; pc is not advanced (spec/40_loop.md R89). -/
def execHlt (s : State) : Host.Outcome State Fault Refusal := .next { s with status := .halted }

/-- PRN (R133): emits the register's value. -/
def execPrn (r : RegIdx) (s : State) : Host.Outcome State Fault Refusal := complete (s.emit (s.getReg r))

/-- LDI (R134): loads the immediate byte. -/
def execLdi (r : RegIdx) (imm : Byte) (s : State) : Host.Outcome State Fault Refusal := complete (s.setReg r imm)

/-- An unsupported direct-effect byte (R135): raises UnsupportedOpcode with the byte and its address. -/
def execUnsupportedDirect (op : Byte) (s : State) : Host.Outcome State Fault Refusal :=
  takeFault (.unsupportedOpcode op s.pc) s

end Sys2Proof.Machine
end

