-- ==== Sys2Proof/Machine/PcFamily.lean ====
section
/-! DEFINITION. The PC-mutating family (spec/44_pc_family.md). -/

namespace Sys2Proof.Machine

/-- A reserved byte of the PC-mutating family (R140): no effect, and the advance of every instruction by `1 + ir[7:6]`
(spec/40_loop.md R87). In a step `ir` is the byte these fields came from. -/
def execPcReserved (_aa : BitVec 2) (_dddd : BitVec 4) (s : State) : Host.Outcome State Fault Refusal := complete s

end Sys2Proof.Machine
end

