-- ==== Sys2Proof/Machine/Stack.lean ====
section
/-! DEFINITION. The stack discipline and its two instructions (spec/42_stack.md). The stack pointer moves by the ALU's own
DEC and INC of register 7 (R120, R121, R126), and nothing checks its range (R122). -/

namespace Sys2Proof.Machine

/-- `Push(r)` (R120): the decrement, then the store of `x[r]` at the new stack pointer, both read after the decrement.
A store out of range raises OutOfBounds and the decrement stands (R123, R153). -/
def execPush (r : RegIdx) (s : State) : Host.Outcome State Fault Refusal :=
  match aluApply .dec spReg spReg s with
  | .error k => takeFault k s
  | .ok s1 =>
    match s1.mem.write? (s1.getReg spReg).toNat (s1.getReg r) with
    | some m => complete { s1 with mem := m }
    | none => takeFault (.outOfBounds (s1.getReg spReg).toNat) s1

/-- `Pop(r)` (R121): the load into `x[r]`, then the increment, which reads `x[7]` after that write. A load out of range
raises OutOfBounds before any write (R124). -/
def execPop (r : RegIdx) (s : State) : Host.Outcome State Fault Refusal :=
  match s.mem.read? (s.getReg spReg).toNat with
  | none => takeFault (.outOfBounds (s.getReg spReg).toNat) s
  | some v =>
    match aluApply .inc spReg spReg (s.setReg r v) with
    | .ok s' => complete s'
    | .error k => takeFault k (s.setReg r v)

end Sys2Proof.Machine
end

