-- ==== Sys2Proof/Machine/Operands.lean ====
section
/-! DEFINITION. Reading the bytes of an instruction from memory (spec/40_loop.md R81, R84 to R88). -/

namespace Sys2Proof.Machine

/-- Byte `k` of the instruction at `pc`, or the address whose read raises OutOfBounds (R84, R88). -/
def operandAt (s : State) (k : Nat) : Except Nat Byte :=
  match s.mem.read? (s.pc + k) with
  | some b => .ok b
  | none => .error (s.pc + k)

/-- What fetch and operand reads give. -/
inductive Fetched where
  /-- The instruction, and the state with its opcode byte in `ir`. -/
  | instr (i : Instr) (s : State)
  /-- A read raised OutOfBounds: the state the step ends in. -/
  | faulted (s : State)
  deriving DecidableEq, Repr

/-- Fetch, then the operand reads. A fetch at or above `N` leaves `ir` as it was (R81); an operand read at or above `N`
faults with the new `ir` and before the family's effect (R88). -/
def fetchInstr (t : OpcodeTable) (s : State) : Fetched :=
  match s.mem.read? s.pc with
  | none => .faulted (s.raise (.outOfBounds s.pc))
  | some op =>
    match decodeOperands t op (operandAt s) with
    | .ok i => .instr i { s with ir := op }
    | .error addr => .faulted (State.raise { s with ir := op } (.outOfBounds addr))

end Sys2Proof.Machine
end

