-- ==== Sys2Proof/Machine/Loop.lean ====
section
/-! DEFINITION. One step of the Loop (spec/40_loop.md R80), over an opcode table. -/

namespace Sys2Proof.Machine

/-- `Step()` (R80): fetch, decode and execute one whole instruction. It is defined only when the status is RUNNING;
otherwise it stops as `notRunning` (log entry 4). The advance of the program counter is in each meaning (`complete`), since
HLT and faults do not reach it (R87, R89). -/
def stepWith (t : OpcodeTable) (s : State) : Host.Outcome State Fault Refusal :=
  match s.status with
  | .running =>
    match fetchInstr t s with
    | .instr i s' => exec i s'
    | .faulted s' => .next s'
  | .halted => .fault .notRunning
  | .faulted _ => .fault .notRunning

/-- Bytes stored one after another from `addr`; a byte at or above `N` is not stored. -/
def storeBytes (m : Memory) (addr : Nat) (bytes : List Byte) : Memory :=
  match bytes with
  | [] => m
  | b :: rest => storeBytes ((m.write? addr b).getD m) (addr + 1) rest

/-- The state whose next step fetches the given bytes: they stand at `pc`, and a run is active (log entry 5). -/
def withBytesAtPc (s : State) (bytes : List Byte) : State :=
  { s with mem := storeBytes s.mem s.pc bytes, status := .running }

end Sys2Proof.Machine
end

