-- ==== Sys2Proof/Machine/Step.lean ====
section
/-! DEFINITION. The step of this hardware, and the placing of one instruction word where the step fetches. -/

namespace Sys2Proof.Machine

/-- One step of the machine (spec/40_loop.md R80). -/
def step (s : State) : Host.Outcome State Fault Refusal := Sys2Proof.Machine.stepWith Sys2Proof.opcodeTable s

/-- The state with the table word stored at `pc` and a run active, so that the next step runs it (log entry 5). -/
def State.withFetchWord (s : State) (nbits w : Nat) : State :=
  Sys2Proof.Machine.withBytesAtPc s (Sys2Proof.tableBytes nbits w)

end Sys2Proof.Machine
end

