-- ==== Sys2Proof/Machine/HostInterface.lean ====
section
/-! DEFINITION. What the host can do to a machine instance (spec/70_reset_and_hazards.md), the output lines and the trace.
Every operation is allowed only while no run is active (R54, R176, R177). -/

namespace Sys2Proof.Machine

/-- A host operation, refused while a run is active (R177, IB15). -/
def whenIdle {α : Type} (s : State) (answer : Host.Outcome α Fault Refusal) : Host.Outcome α Fault Refusal :=
  match s.status with
  | .running => .refused .runActive
  | .halted => answer
  | .faulted _ => answer

/-- The register a host index names: its low 3 bits (spec/10_state.md R22). -/
def regOfIndex (index : Nat) : RegIdx := BitVec.ofNat 3 index

/-- The Register File's `get(index)` (R25). -/
def hostGet (s : State) (index : Nat) : Host.Outcome Byte Fault Refusal :=
  whenIdle s (.next (s.getReg (regOfIndex index)))

/-- The Register File's `set(index, value)`: the value is truncated to 8 bits (R23, R25). -/
def hostSet (s : State) (index value : Nat) : Host.Outcome State Fault Refusal :=
  whenIdle s (.next (s.setReg (regOfIndex index) (trunc8 value)))

/-- Memory's `read(address)` (spec/20_memory.md R42, R54). -/
def hostRead (s : State) (addr : Nat) : Host.Outcome Byte Fault Refusal :=
  whenIdle s
    (match s.mem.read? addr with
     | some v => .next v
     | none => .fault (.hostError (.outOfBounds addr)))

/-- Memory's `write(address, value)` (R42, R54). -/
def hostWrite (s : State) (addr : Nat) (v : Byte) : Host.Outcome State Fault Refusal :=
  whenIdle s
    (match s.mem.write? addr v with
     | some m => .next { s with mem := m }
     | none => .fault (.hostError (.outOfBounds addr)))

/-- `load_program(bytes, start)` (R171): a sequence with a value outside a byte is not accepted (R173), one that would
overflow Memory fails and writes nothing (R172). DESIGN CHOICE (log entry 7): where both hold, the sequence is refused. -/
def loadProgram (s : State) (bytes : List Nat) (start : Nat := 0) : Host.Outcome State Fault Refusal :=
  whenIdle s
    (if bytes.any (fun b => decide (256 ≤ b)) then .refused .notByteSequence
     else if s.mem.size < start + bytes.length then .fault (.hostError .programTooLarge)
     else .next { s with mem := storeBytes s.mem start (bytes.map trunc8) })

/-- The loader's `load`, which may have been supplied no program (R174, R175). -/
def loadSource (s : State) (source : Option (List Nat)) (start : Nat := 0) : Host.Outcome State Fault Refusal :=
  match source with
  | some bytes => loadProgram s bytes start
  | none => whenIdle s (.fault (.hostError .missingProgramSource))

/-- The start of a run (R178): pc, ir, status and out are reset; memory and registers keep their values. -/
def startRun (s : State) : Host.Outcome State Fault Refusal :=
  whenIdle s (.next { s with pc := 0, ir := 0x00, status := .running, out := [] })

/-- At most `n` steps under the opcode table `t`, for as long as the status is RUNNING (spec/40_loop.md R90). -/
def runForWith (t : OpcodeTable) (n : Nat) (s : State) : Host.Outcome State Fault Refusal :=
  match n with
  | 0 => .next s
  | n + 1 =>
    match s.status with
    | .halted => .next s
    | .faulted _ => .next s
    | .running =>
      match stepWith t s with
      | .next s' => runForWith t n s'
      | .fault f => .fault f
      | .refused r => .refused r

/-- The host's `run` under the opcode table `t` (R177 to R179): a run ends within `N + 1` steps (R91), and its result is
the final state. -/
def runWith (t : OpcodeTable) (s : State) : Host.Outcome State Fault Refusal :=
  match startRun s with
  | .next s' => runForWith t (s'.mem.size + 1) s'
  | .fault f => .fault f
  | .refused r => .refused r

/-- At most `n` steps of this hardware. -/
def runFor (n : Nat) (s : State) : Host.Outcome State Fault Refusal := runForWith opcodeTable n s

/-- The host's `run` on this hardware. -/
def run (s : State) : Host.Outcome State Fault Refusal := runWith opcodeTable s

/-- The machine of a configuration (R8): its step reads instructions under the configuration's `OPC`, and its first run
starts on an instance constructed with its `N`, `SP_INIT` and `INIT_REGS`. -/
def machineOf (c : Config) : Host.Core where
  State := State
  Fault := Fault
  Refusal := Refusal
  step := stepWith c.opc
  reset := State.firstRunStart c

/-- The decimal digits of a byte, most significant first, with no leading zero (spec/60_exceptions.md R161). -/
def decimalDigits (v : Byte) : List Nat :=
  if v.toNat < 10 then [v.toNat]
  else if v.toNat < 100 then [v.toNat / 10, v.toNat % 10]
  else [v.toNat / 100, v.toNat / 10 % 10, v.toNat % 10]

/-- The text of one output line in ASCII: the decimal numeral and one LF (R160, R161).
PRESUMED (log entry 9): the terminator is LF by the spec's general knowledge (D10). -/
def outputLine (v : Byte) : List Byte :=
  (decimalDigits v).map (fun d => trunc8 (0x30 + d)) ++ [0x0A]

/-- The lines the run has written to the host's standard output (R160). -/
def outputLines (s : State) : List (List Byte) := s.out.map outputLine

/-- What may have reached the host's stream: output is best-effort, so any subsequence of the lines (R162, IB4). -/
def mayDeliver (s : State) (stream : List (List Byte)) : Prop := stream.Sublist (outputLines s)

/-- The two hexadecimal digits of a byte, high digit first (R163). -/
def hexDigits (v : Byte) : BitVec 4 × BitVec 4 := (v.extractLsb' 4 4, v.extractLsb' 0 4)

/-- What the trace reports (R163): the program counter, the three memory bytes at `pc`, `pc+1` and `pc+2`, each unknown
where the address is at or above `N` (D15), and the eight registers; bytes as two hexadecimal digits. -/
structure TraceReport where
  pc : Nat
  bytes : List (Option (BitVec 4 × BitVec 4))
  regs : Vector (BitVec 4 × BitVec 4) 8
  deriving DecidableEq, Repr

/-- What the trace reports of a state. -/
def traceReport (s : State) : TraceReport where
  pc := s.pc
  bytes := [s.pc, s.pc + 1, s.pc + 2].map (fun a => (s.mem.read? a).map hexDigits)
  regs := s.x.map hexDigits

/-- `trace()` (R163): optional, never faults and changes no state. It reads memory, so it is made, as every access of the
host, only while no run is active (R54, D11). -/
def trace (s : State) : Host.Outcome TraceReport Fault Refusal := whenIdle s (.next (traceReport s))

end Sys2Proof.Machine
end

