-- ==== Sys2Proof/Safety.lean ====
section
/-! DEFINITION. What counts as a safe run, the invariant of the machine, and the terms the statements use. -/

namespace Sys2Proof.Machine

/-- The bytes stand in memory one after another from `pc` (spec/20_memory.md R45). -/
abbrev codeAt (s : State) (bytes : List Byte) : Prop :=
  ∀ k, ∀ h : k < bytes.length, s.mem.read? (s.pc + k) = some bytes[k]

/-- Register `r` and the program counter apart, nothing changes. -/
def sameButReg (r : RegIdx) (s t : State) : Prop :=
  (∀ q, q ≠ r → t.getReg q = s.getReg q)
    ∧ t.mem = s.mem ∧ t.ir = s.ir ∧ t.status = s.status ∧ t.out = s.out

/-- The program counter has advanced by `1 + ir[7:6]` (spec/40_loop.md R87). -/
def pcAdvanced (s t : State) : Prop := t.pc = s.pc + 1 + s.ir.toNat / 64

/-- The state after `raise k`: FAULTED with the record of the kind, the pc and the opcode byte, and nothing else changed
(spec/60_exceptions.md R150, R152). -/
def faultedWith (k : ErrorKind) (s : State) : State :=
  { s with status := .faulted { kind := k, pc := s.pc, ir := s.ir } }

/-- A step on the opcode byte `op` reads byte `pc+1` before anything else: where it is at or above `N`, the step ends in
OutOfBounds of that address, and only `ir` and the status change (spec/40_loop.md R88). -/
def readsOneOperand (op : Byte) : Prop :=
  ∀ s : State, s.status = .running → s.mem.read? s.pc = some op → s.mem.size ≤ s.pc + 1 →
    step s = .next (faultedWith (.outOfBounds (s.pc + 1)) { s with ir := op })

/-- The same for an opcode byte whose step reads `pc+1` and then `pc+2` (R84, R85, R88). -/
def readsTwoOperands (op : Byte) : Prop :=
  readsOneOperand op ∧
    ∀ s : State, s.status = .running → s.mem.read? s.pc = some op → s.mem.size = s.pc + 2 →
      step s = .next (faultedWith (.outOfBounds (s.pc + 2)) { s with ir := op })

/-- With the opcode byte `op` and one operand byte at `pc`, the step runs the instruction of the register the low three
bits of the operand byte name (spec/30_encoding.md R62, R63). -/
def runsOneRegister (op : Byte) (mk : RegIdx → Instr) : Prop :=
  ∀ (s : State) (e : Byte), s.status = .running → codeAt s [op, e] →
    step s = exec (mk (e.extractLsb' 0 3)) { s with ir := op }

/-- The same with two register operand bytes. -/
def runsTwoRegisters (op : Byte) (mk : RegIdx → RegIdx → Instr) : Prop :=
  ∀ (s : State) (ea eb : Byte), s.status = .running → codeAt s [op, ea, eb] →
    step s = exec (mk (ea.extractLsb' 0 3) (eb.extractLsb' 0 3)) { s with ir := op }

/-- The same with one register operand byte and a byte that is read and ignored (R62, format FA1). -/
def runsRegisterAndIgnored (op : Byte) (mk : RegIdx → Instr) : Prop :=
  ∀ (s : State) (ea ignored : Byte), s.status = .running → codeAt s [op, ea, ignored] →
    step s = exec (mk (ea.extractLsb' 0 3)) { s with ir := op }

/-- The family of an instruction's opcode byte (R65). -/
def familyOfInstr (i : Instr) : Family :=
  match i with
  | .nop => .direct
  | .hlt => .direct
  | .push _ => .direct
  | .pop _ => .direct
  | .prn _ => .direct
  | .ldi _ _ => .direct
  | .add _ _ => .alu
  | .sub _ _ => .alu
  | .mul _ _ => .alu
  | .div _ _ => .alu
  | .mod _ _ => .alu
  | .inc _ => .alu
  | .dec _ => .alu
  | .pcReserved _ _ => .pcMutating
  | .unsupportedAlu _ _ _ => .alu
  | .unsupportedDirect _ => .direct

/-- What the kind of a fault record says of the state that holds it (R151, R152): an OutOfBounds names an address at or
above `N`, the codes are the opcode byte of the right class, the address is the pc, and a step never records a kind that
belongs to a host operation. -/
def kindDescribes (k : ErrorKind) (s : State) : Prop :=
  match k with
  | .outOfBounds addr => s.mem.size ≤ addr
  | .divisionByZero => s.ir = opcodeTable.div ∨ s.ir = opcodeTable.mod
  | .unsupportedAluOp code => code = s.ir ∧ opcodeTable.isUnsupportedAlu s.ir = true
  | .unsupportedOpcode code address =>
    code = s.ir ∧ address = s.pc ∧ opcodeTable.isUnsupportedDirect s.ir = true
  | .programTooLarge => False
  | .missingProgramSource => False

/-- The invariant of the machine: memory has a byte (`N >= 1`, R8) and is in canonical form, and a fault record names the pc and the opcode byte of the
state that holds it and its kind describes that state. -/
def State.Inv (s : State) : Prop :=
  1 ≤ s.mem.size ∧ s.mem.wf = true ∧
    ∀ r, s.status = .faulted r → r.pc = s.pc ∧ r.ir = s.ir ∧ kindDescribes r.kind s

/-- A safe run: it ends in HALTED, not in a fault (R90, R179). -/
def safeRun (s : State) : Prop := ∃ t, run s = .next t ∧ t.status = .halted

end Sys2Proof.Machine
end

