-- ==== Sys2Proof/Certificates/Slice0/Obligations.lean ====
section
/-! DEFINITION. The statements for the provers. Each docstring names the rule of spec/ it formalises; a statement that
rests on a choice of the spec's or the model's own says so and names its decision or log entry.

Opcode bytes stand as fields of `opcodeTable` (log entry 1), and `AA`, bits 7:6 of a byte, as `toNat / 64`. -/

open Sys2Proof Sys2Proof.Machine

/-! ## Encoding -/

/-- Decoding the encoding of a well-formed instruction gives it back, under every opcode table that meets the source's
constraints, whatever byte follows it in memory: no bit of an operand is dropped. At least one byte follows, because INC
and DEC read the next instruction's first byte (R62). The exact match of the whole byte is decision D2. -/
def Obligations.DecodeOfEncodeIsTheInstruction : Prop :=
  ∀ t : OpcodeTable, t.meetsSource = true → ∀ i : Instr, i.wf t = true →
    ∀ (next : Byte) (tail : List Byte), decodeWith t (encodeWith t i ++ next :: tail) = .ok i

/-- The decoder is total (R68): every opcode byte with two bytes after it decodes, to a well-formed instruction with that
opcode byte. -/
def Obligations.EveryOpcodeByteDecodes : Prop :=
  ∀ (t : OpcodeTable) (op e1 e2 : Byte) (tail : List Byte),
    ∃ i, decodeWith t (op :: e1 :: e2 :: tail) = .ok i ∧ i.wf t = true ∧ i.opcode t = op

/-- The family is chosen by bit 5 first, then bit 4 (R83). -/
def Obligations.FamilyIsChosenByBitFiveThenBitFour : Prop :=
  ∀ (op : Byte) (rest : List Byte) (i : Instr), decode (op :: rest) = .ok i →
    familyOfInstr i =
      if op.getLsbD 5 = true then .alu else if op.getLsbD 4 = true then .pcMutating else .direct

/-- A byte of the ALU family or of the direct-effect family that is in no row of R66's table decodes to the unsupported
class of its family, and a PC-mutating byte to its two fields (R67, R68; the exact match is decision D2). -/
def Obligations.UnlistedBytesDecodeToTheirClass : Prop :=
  ∀ (op e1 e2 : Byte) (tail : List Byte),
    (op.getLsbD 5 = true → op ∉ opcodeTable.aluBytes →
      decode (op :: e1 :: e2 :: tail)
        = .ok (.unsupportedAlu op (e1.extractLsb' 0 3) (e2.extractLsb' 0 3)))
    ∧ (op.getLsbD 5 = false → op.getLsbD 4 = true →
      decode (op :: tail) = .ok (.pcReserved (op.extractLsb' 6 2) (op.extractLsb' 0 4)))
    ∧ (op.getLsbD 5 = false → op.getLsbD 4 = false → op ∉ opcodeTable.directBytes →
      decode (op :: tail) = .ok (.unsupportedDirect op))

/-- The opcode table holds the bytes of R66, which the spec takes from general knowledge (decision D1, log entry 1), and
they meet the constraints the source itself fixes. -/
def Obligations.OpcodeTableHoldsTheLs8Bytes : Prop :=
  opcodeTable.directBytes = [0x00, 0x01, 0x45, 0x46, 0x47, 0x82]
    ∧ opcodeTable.aluBytes = [0xA0, 0xA1, 0xA2, 0xA3, 0xA4, 0x65, 0x66]
    ∧ opcodeTable.meetsSource = true

/-- The 256 bytes split into 13 instructions, 121 unsupported ALU bytes, 64 PC-mutating bytes and 58 unsupported direct
bytes (R68, over decisions D1 and D2). -/
def Obligations.OpcodeSpaceCounts : Prop :=
  let count := fun p : Byte → Bool => ((List.range 256).filter (fun n => p (trunc8 n))).length
  count (fun b => (opcodeTable.directBytes ++ opcodeTable.aluBytes).contains b) = 13
    ∧ count opcodeTable.isUnsupportedAlu = 121
    ∧ count (fun b => familyOf b == .pcMutating) = 64
    ∧ count opcodeTable.isUnsupportedDirect = 58

/-- Words written out from the table of R66 and the formats of R62, one of each format and class, decode to the
instruction they stand for (bytes by decision D1). -/
def Obligations.SampleWordsDecode : Prop :=
  decode [0b00000000] = .ok .nop ∧ decode [0b00000001] = .ok .hlt
    ∧ decode [0b01000101, 0b00001010] = .ok (.push 2) ∧ decode [0b10000010, 0x0D, 0xFF] = .ok (.ldi 5 255)
    ∧ decode [0b10100001, 0xF8, 0x09] = .ok (.sub 0 1) ∧ decode [0b01100101, 0x03, 0x47] = .ok (.inc 3)
    ∧ decode [0b11010000] = .ok (.pcReserved 3 0) ∧ decode [0xA7, 0x00, 0x01] = .ok (.unsupportedAlu 0xA7 0 1)
    ∧ decode [0xCF] = .ok (.unsupportedDirect 0xCF)

/-- A register operand names the register of its low three bits, in every format that has one, and the ignored bits never
cause a fault (R63). -/
def Obligations.RegisterOperandIsTheLowThreeBits : Prop :=
  ∀ (e e' v : Byte) (tail : List Byte),
    (decode (opcodeTable.push :: e :: tail) = .ok (.push (e.extractLsb' 0 3))
      ∧ decode (opcodeTable.pop :: e :: tail) = .ok (.pop (e.extractLsb' 0 3))
      ∧ decode (opcodeTable.prn :: e :: tail) = .ok (.prn (e.extractLsb' 0 3)))
    ∧ decode (opcodeTable.ldi :: e :: v :: tail) = .ok (.ldi (e.extractLsb' 0 3) v)
    ∧ (decode (opcodeTable.add :: e :: e' :: tail) = .ok (.add (e.extractLsb' 0 3) (e'.extractLsb' 0 3))
      ∧ decode (opcodeTable.sub :: e :: e' :: tail) = .ok (.sub (e.extractLsb' 0 3) (e'.extractLsb' 0 3))
      ∧ decode (opcodeTable.mul :: e :: e' :: tail) = .ok (.mul (e.extractLsb' 0 3) (e'.extractLsb' 0 3))
      ∧ decode (opcodeTable.div :: e :: e' :: tail) = .ok (.div (e.extractLsb' 0 3) (e'.extractLsb' 0 3))
      ∧ decode (opcodeTable.mod :: e :: e' :: tail) = .ok (.mod (e.extractLsb' 0 3) (e'.extractLsb' 0 3)))
    ∧ decode (opcodeTable.inc :: e :: v :: tail) = .ok (.inc (e.extractLsb' 0 3))
    ∧ decode (opcodeTable.dec :: e :: v :: tail) = .ok (.dec (e.extractLsb' 0 3))

/-- The encoding of every well-formed instruction that does not fault by its class is `1 + AA` bytes long (R61). -/
def Obligations.EncodingIsOnePlusOperandCountLong : Prop :=
  ∀ i : Instr, (∀ op a b, i ≠ .unsupportedAlu op a b) → (∀ op, i ≠ .unsupportedDirect op) →
    (encode i).length = 1 + (i.opcode opcodeTable).toNat / 64

/-! ## The step -/

/-- A step runs the decoded instruction: when the bytes at the program counter decode to `i`, the step is `exec i` at the
state with the opcode byte in `ir` (R80). The step adds nothing else: each meaning ends with its own advance of pc. -/
def Obligations.StepRunsTheDecodedInstruction : Prop :=
  ∀ (s : State) (op : Byte) (rest : List Byte) (i : Instr), s.status = .running → codeAt s (op :: rest) →
    decode (op :: rest) = .ok i → step s = exec i { s with ir := op }

/-- A fetch at or above `N` faults with OutOfBounds of the pc and changes nothing but the status; `ir` keeps its previous
value (R81; the last by decision D5, log entry 6). -/
def Obligations.FetchOutOfRangeFaults : Prop :=
  ∀ s : State, s.status = .running → s.mem.size ≤ s.pc →
    step s = .next (faultedWith (.outOfBounds s.pc) s)

/-- Every ALU-family byte, supported or not, reads `pc+1` and then `pc+2`, and a read at or above `N` faults before
anything else happens: before the unsupported byte and the zero divisor are reported (R84, R88, R154). -/
def Obligations.AluFamilyReadsTwoOperandsFirst : Prop :=
  ∀ op : Byte, op.getLsbD 5 = true → readsTwoOperands op

/-- The direct-effect and PC-mutating families read the operands each instruction names and no other (R85, R88): PUSH,
POP and PRN run wherever their two bytes are in memory, be they the last two, and fault where `pc+1` is out of range; LDI
runs wherever its three bytes are, and faults where `pc+1` or `pc+2` is out of range; NOP, HLT, an unsupported byte and
every PC-mutating byte run at the last byte of memory too. The match before any operand read is decision D9 and the
PC-mutating bytes' reading none decision D14 (log entry 13). -/
def Obligations.OtherFamiliesReadOnlyTheirOperands : Prop :=
  (readsOneOperand opcodeTable.push ∧ runsOneRegister opcodeTable.push .push)
    ∧ (readsOneOperand opcodeTable.pop ∧ runsOneRegister opcodeTable.pop .pop)
    ∧ (readsOneOperand opcodeTable.prn ∧ runsOneRegister opcodeTable.prn .prn)
    ∧ (readsTwoOperands opcodeTable.ldi
      ∧ ∀ (s : State) (e v : Byte), s.status = .running → codeAt s [opcodeTable.ldi, e, v] →
        step s = exec (.ldi (e.extractLsb' 0 3) v) { s with ir := opcodeTable.ldi })
    ∧ ∀ (s : State) (op : Byte), s.status = .running → s.mem.read? s.pc = some op → op.getLsbD 5 = false →
      op.getLsbD 4 = true ∨ op ∉ [opcodeTable.push, opcodeTable.pop, opcodeTable.prn, opcodeTable.ldi] →
        ∃ i, decode [op] = .ok i ∧ step s = exec i { s with ir := op }

/-- Every step of a running machine answers a next state: no instruction stops the model (R68, R80, R150). -/
def Obligations.RunningStepAnswersANextState : Prop :=
  ∀ s : State, s.status = .running → ∃ t, step s = .next t

/-- Where the status is HALTED or FAULTED no step is defined (R80, R28); the model stops there (log entry 4). -/
def Obligations.NoStepOutsideARun : Prop :=
  ∀ s : State, s.status ≠ .running → step s = .fault .notRunning

/-! ## The ALU family -/

/-- ADD (R101). -/
def Obligations.AddWritesTheSumModulo256 : Prop :=
  (∀ (s : State) (a b : RegIdx), ∃ t, exec (.add a b) s = .next t
      ∧ (t.getReg a).toNat = ((s.getReg a).toNat + (s.getReg b).toNat) % 256
      ∧ sameButReg a s t ∧ pcAdvanced s t)
    ∧ opcodeTable.add.toNat / 64 = 2 ∧ runsTwoRegisters opcodeTable.add .add ∧ readsTwoOperands opcodeTable.add

/-- SUB (R102): the difference as an integer, reduced mod 256. -/
def Obligations.SubWritesTheDifferenceModulo256 : Prop :=
  (∀ (s : State) (a b : RegIdx), ∃ t, exec (.sub a b) s = .next t
      ∧ ((t.getReg a).toNat : Int) = (((s.getReg a).toNat : Int) - (s.getReg b).toNat) % 256
      ∧ sameButReg a s t ∧ pcAdvanced s t)
    ∧ opcodeTable.sub.toNat / 64 = 2 ∧ runsTwoRegisters opcodeTable.sub .sub ∧ readsTwoOperands opcodeTable.sub

/-- MUL (R103): the low eight bits of the product. -/
def Obligations.MulWritesTheProductModulo256 : Prop :=
  (∀ (s : State) (a b : RegIdx), ∃ t, exec (.mul a b) s = .next t
      ∧ (t.getReg a).toNat = (s.getReg a).toNat * (s.getReg b).toNat % 256
      ∧ sameButReg a s t ∧ pcAdvanced s t)
    ∧ opcodeTable.mul.toNat / 64 = 2 ∧ runsTwoRegisters opcodeTable.mul .mul ∧ readsTwoOperands opcodeTable.mul

/-- DIV (R104): the quotient when the divisor is not 0, else DivisionByZero with `x[a]` kept too (decision D6). -/
def Obligations.DivWritesTheQuotientOrFaults : Prop :=
  (∀ (s : State) (a b : RegIdx),
      ((s.getReg b).toNat ≠ 0 → ∃ t, exec (.div a b) s = .next t
        ∧ (t.getReg a).toNat = (s.getReg a).toNat / (s.getReg b).toNat
        ∧ sameButReg a s t ∧ pcAdvanced s t)
      ∧ ((s.getReg b).toNat = 0 → exec (.div a b) s = .next (faultedWith .divisionByZero s)))
    ∧ opcodeTable.div.toNat / 64 = 2 ∧ runsTwoRegisters opcodeTable.div .div ∧ readsTwoOperands opcodeTable.div

/-- MOD (R105): the remainder when the divisor is not 0, else the fault of DIV with its state (decision D6). -/
def Obligations.ModWritesTheRemainderOrFaults : Prop :=
  (∀ (s : State) (a b : RegIdx),
      ((s.getReg b).toNat ≠ 0 → ∃ t, exec (.mod a b) s = .next t
        ∧ (∃ q, (s.getReg a).toNat = q * (s.getReg b).toNat + (t.getReg a).toNat)
        ∧ (t.getReg a).toNat < (s.getReg b).toNat
        ∧ sameButReg a s t ∧ pcAdvanced s t)
      ∧ ((s.getReg b).toNat = 0 → exec (.mod a b) s = .next (faultedWith .divisionByZero s)))
    ∧ opcodeTable.mod.toNat / 64 = 2 ∧ runsTwoRegisters opcodeTable.mod .mod ∧ readsTwoOperands opcodeTable.mod

/-- INC (R106): its second operand byte is read and ignored. That its `AA` is 1 is decision D1 (log entry 1): the source
does not fix it. -/
def Obligations.IncAddsOneModulo256 : Prop :=
  (∀ (s : State) (a : RegIdx), ∃ t, exec (.inc a) s = .next t
      ∧ (t.getReg a).toNat = ((s.getReg a).toNat + 1) % 256
      ∧ sameButReg a s t ∧ pcAdvanced s t)
    ∧ opcodeTable.inc.toNat / 64 = 1 ∧ runsRegisterAndIgnored opcodeTable.inc .inc
    ∧ readsTwoOperands opcodeTable.inc

/-- DEC (R107): its second operand byte is read and ignored. That its `AA` is 1 is decision D1 (log entry 1): the source
does not fix it. -/
def Obligations.DecSubtractsOneModulo256 : Prop :=
  (∀ (s : State) (a : RegIdx), ∃ t, exec (.dec a) s = .next t
      ∧ ((t.getReg a).toNat : Int) = (((s.getReg a).toNat : Int) - 1) % 256
      ∧ sameButReg a s t ∧ pcAdvanced s t)
    ∧ opcodeTable.dec.toNat / 64 = 1 ∧ runsRegisterAndIgnored opcodeTable.dec .dec
    ∧ readsTwoOperands opcodeTable.dec

/-- An unsupported ALU-family byte (R108): UnsupportedAluOp with the byte, after the two operand reads; 121 bytes, 0xFF
among them; no register, memory byte or pc changes. Which bytes these are rests on the exact match, decision D2 (log
entry 10), over the bytes of decision D1 (log entry 1); the operand reads before the check are log entry 13. -/
def Obligations.UnsupportedAluByteFaults : Prop :=
  (∀ (s : State) (op : Byte) (a b : RegIdx),
      exec (.unsupportedAlu op a b) s = .next (faultedWith (.unsupportedAluOp op) s))
    ∧ (∀ op : Byte, op.getLsbD 5 = true → op ∉ opcodeTable.aluBytes →
      runsTwoRegisters op (.unsupportedAlu op) ∧ readsTwoOperands op)
    ∧ ((List.range 256).filter (fun n => opcodeTable.isUnsupportedAlu (trunc8 n))).length = 121
    ∧ opcodeTable.isUnsupportedAlu 0xFF = true

/-! ## The stack -/

/-- PUSH (R120): the stack pointer goes down by one mod 256, and the register's value after that is stored at the new
stack pointer: the only byte of memory that changes. `PUSH R7` stores the decremented stack pointer. The store is in range
whenever `N` is 256. That the stack pointer wraps with no check is decision D16 (log entry 15); `AA` and the step of the
bytes are R123's. -/
def Obligations.PushDecrementsThenStores : Prop :=
  (∀ (s : State) (r : RegIdx) (sp : Byte), s.mem.wf = true →
      sp = trunc8 ((s.getReg 7).toNat + 255) → sp.toNat < s.mem.size →
      ∃ t, exec (.push r) s = .next t ∧ t.getReg 7 = sp ∧ (∀ q, q ≠ 7 → t.getReg q = s.getReg q)
        ∧ (∀ addr, t.mem.read? addr =
            if addr = sp.toNat then some (if r = 7 then sp else s.getReg r) else s.mem.read? addr)
        ∧ t.mem.size = s.mem.size ∧ t.mem.wf = true
        ∧ t.ir = s.ir ∧ t.status = s.status ∧ t.out = s.out ∧ pcAdvanced s t)
    ∧ opcodeTable.push.toNat / 64 = 1 ∧ runsOneRegister opcodeTable.push .push

/-- A PUSH whose store is out of range, which needs `N < 256`, faults with the decrement made (R123, R153; no rollback is
decision D6). -/
def Obligations.PushOutOfRangeKeepsTheDecrement : Prop :=
  ∀ (s : State) (r : RegIdx) (sp : Byte), sp = trunc8 ((s.getReg 7).toNat + 255) → s.mem.size ≤ sp.toNat →
    ∃ t, exec (.push r) s = .next t ∧ t.getReg 7 = sp ∧ (∀ q, q ≠ 7 → t.getReg q = s.getReg q)
      ∧ t.status = .faulted { kind := .outOfBounds sp.toNat, pc := s.pc, ir := s.ir }
      ∧ t.mem = s.mem ∧ t.pc = s.pc ∧ t.ir = s.ir ∧ t.out = s.out

/-- POP (R121): the byte at the stack pointer goes to the register, then the stack pointer as it then is goes up by one
mod 256; so `POP R7` leaves the popped byte plus one. That the stack pointer wraps with no check is decision D16, and that
POP may write R7 decision D17 (log entry 15); `AA` and the step of the bytes are R124's. -/
def Obligations.PopLoadsThenIncrements : Prop :=
  (∀ (s : State) (r : RegIdx) (v : Byte), s.mem.read? (s.getReg 7).toNat = some v →
      ∃ t, exec (.pop r) s = .next t
        ∧ (r ≠ 7 → t.getReg r = v ∧ (t.getReg 7).toNat = ((s.getReg 7).toNat + 1) % 256)
        ∧ (r = 7 → (t.getReg 7).toNat = (v.toNat + 1) % 256)
        ∧ (∀ q, q ≠ r → q ≠ 7 → t.getReg q = s.getReg q)
        ∧ t.mem = s.mem ∧ t.ir = s.ir ∧ t.status = s.status ∧ t.out = s.out ∧ pcAdvanced s t)
    ∧ opcodeTable.pop.toNat / 64 = 1 ∧ runsOneRegister opcodeTable.pop .pop

/-- A POP whose load is out of range, which needs `N < 256`, faults and changes nothing else (R124, R153). -/
def Obligations.PopOutOfRangeChangesNothing : Prop :=
  ∀ (s : State) (r : RegIdx), s.mem.size ≤ (s.getReg 7).toNat →
    exec (.pop r) s = .next (faultedWith (.outOfBounds (s.getReg 7).toNat) s)

/-- A PUSH of any register followed at once by a POP of it restores that register and the stack pointer, and every other
register with them (R125, for a stack address in range, which it always is when `N` is 256). -/
def Obligations.PushThenPopRestores : Prop :=
  ∀ (s : State) (r : RegIdx), s.mem.wf = true → ((s.getReg 7).toNat + 255) % 256 < s.mem.size →
    ∃ t u, exec (.push r) s = .next t ∧ exec (.pop r) t = .next u ∧ ∀ q, u.getReg q = s.getReg q

/-! ## The direct-effect and PC-mutating families -/

/-- NOP (R131). That its step advances pc by exactly one is its `AA`, decision D1 (log entry 1): the source does not fix
it. -/
def Obligations.NopOnlyAdvances : Prop :=
  (∀ s : State, exec .nop s = .next { s with pc := s.pc + 1 + s.ir.toNat / 64 })
    ∧ ∀ s : State, s.status = .running → s.mem.read? s.pc = some opcodeTable.nop →
      step s = .next { s with ir := opcodeTable.nop, pc := s.pc + 1 }

/-- HLT (R132). -/
def Obligations.HltHaltsWithoutAdvance : Prop :=
  (∀ s : State, exec .hlt s = .next { s with status := .halted })
    ∧ ∀ s : State, s.status = .running → s.mem.read? s.pc = some opcodeTable.hlt →
      step s = .next { s with ir := opcodeTable.hlt, status := .halted }

/-- PRN (R133): the register's value is appended to the output; no register or memory byte changes. -/
def Obligations.PrnAppendsTheRegister : Prop :=
  (∀ (s : State) (r : RegIdx), ∃ t, exec (.prn r) s = .next t ∧ t.out = s.out ++ [s.getReg r]
      ∧ (∀ q, t.getReg q = s.getReg q) ∧ t.mem = s.mem ∧ t.ir = s.ir ∧ t.status = s.status ∧ pcAdvanced s t)
    ∧ opcodeTable.prn.toNat / 64 = 1 ∧ runsOneRegister opcodeTable.prn .prn ∧ readsOneOperand opcodeTable.prn

/-- LDI (R134): the immediate byte as it stands goes to the register, the stack pointer too. -/
def Obligations.LdiLoadsTheImmediate : Prop :=
  (∀ (s : State) (r : RegIdx) (v : Byte), ∃ t, exec (.ldi r v) s = .next t
      ∧ t.getReg r = v ∧ sameButReg r s t ∧ pcAdvanced s t)
    ∧ opcodeTable.ldi.toNat / 64 = 2
    ∧ (∀ (s : State) (e v : Byte), s.status = .running → codeAt s [opcodeTable.ldi, e, v] →
      step s = exec (.ldi (e.extractLsb' 0 3) v) { s with ir := opcodeTable.ldi })
    ∧ readsTwoOperands opcodeTable.ldi

/-- An unsupported direct-effect byte (R135): UnsupportedOpcode with the byte and its address; no operand is read, so the
last byte of memory reports it too; no register, memory byte or pc changes. There are 58 such bytes. Which bytes these
are rests on the exact match, decision D2 (log entry 10), over the bytes of decision D1 (log entry 1), and the match before
any operand read on decision D9 (log entry 13). -/
def Obligations.UnsupportedDirectByteFaults : Prop :=
  (∀ (s : State) (op : Byte),
      exec (.unsupportedDirect op) s = .next (faultedWith (.unsupportedOpcode op s.pc) s))
    ∧ (∀ (s : State) (op : Byte), s.status = .running → s.mem.read? s.pc = some op →
      op.getLsbD 5 = false → op.getLsbD 4 = false → op ∉ opcodeTable.directBytes →
        step s = .next (faultedWith (.unsupportedOpcode op s.pc) { s with ir := op }))
    ∧ ((List.range 256).filter (fun n => opcodeTable.isUnsupportedDirect (trunc8 n))).length = 58
    ∧ opcodeTable.isUnsupportedDirect 0xCF = true

/-- A byte of the PC-mutating family (R140): a no-op that advances pc by `1 + AA`, and reads none of the bytes it skips
(decision D14), so it never faults. -/
def Obligations.ReservedByteOnlyAdvances : Prop :=
  (∀ (s : State) (aa : BitVec 2) (dddd : BitVec 4),
      exec (.pcReserved aa dddd) s = .next { s with pc := s.pc + 1 + s.ir.toNat / 64 })
    ∧ ∀ (s : State) (op : Byte), s.status = .running → s.mem.read? s.pc = some op →
      op.getLsbD 5 = false → op.getLsbD 4 = true →
        step s = .next { s with ir := op, pc := s.pc + 1 + op.toNat / 64 }

/-! ## The whole machine -/

/-- A step that neither halts nor faults advances pc by one plus the operand count of the byte it fetched, whatever the
instruction did, and pc never wraps (R87; no wrap is decision D3). -/
def Obligations.AdvanceDependsOnTheOpcodeByteOnly : Prop :=
  ∀ s t : State, step s = .next t → t.status = .running →
    ∃ op, s.mem.read? s.pc = some op ∧ t.pc = s.pc + 1 + op.toNat / 64

/-- HLT and every fault leave pc unchanged; after HLT it is HLT's address, and a fault's record names it (R89). -/
def Obligations.HaltAndFaultLeaveThePc : Prop :=
  ∀ s t : State, step s = .next t →
    (t.status = .halted → t.pc = s.pc ∧ t.mem.read? t.pc = some opcodeTable.hlt)
      ∧ ∀ r, t.status = .faulted r → t.pc = s.pc ∧ r.pc = s.pc

/-- After a step `ir` holds the opcode byte it fetched; a fetch out of range leaves it (R27, R81; the last by decision
D5). -/
def Obligations.IrHoldsTheFetchedByte : Prop :=
  ∀ s t : State, step s = .next t → t.ir = (s.mem.read? s.pc).getD s.ir

/-- Only PUSH writes memory, and only the byte below the stack pointer; no step changes the memory's size (R40, R120). -/
def Obligations.OnlyPushWritesMemory : Prop :=
  ∀ s t : State, s.mem.wf = true → step s = .next t → t.mem.size = s.mem.size
    ∧ (t.mem ≠ s.mem → s.mem.read? s.pc = some opcodeTable.push)
    ∧ ∀ addr, addr ≠ ((s.getReg 7).toNat + 255) % 256 → t.mem.read? addr = s.mem.read? addr

/-- The output is written only by PRN, which appends one register's value (R160). -/
def Obligations.OnlyPrnWritesOutput : Prop :=
  ∀ s t : State, step s = .next t → t.out = s.out ∨
    (s.mem.read? s.pc = some opcodeTable.prn ∧ ∃ r, t.out = s.out ++ [s.getReg r])

/-- HLT alone enters HALTED (R132; spec/90_conflicts.md C6). -/
def Obligations.OnlyHltHalts : Prop :=
  ∀ s t : State, step s = .next t → (t.status = .halted ↔ s.mem.read? s.pc = some opcodeTable.hlt)

/-- No instruction reads the output (R29): two runs that differ in it alone take the same step and append the same. -/
def Obligations.OutputIsNeverRead : Prop :=
  ∀ s t : State, step s = .next t → ∃ emitted, t.out = s.out ++ emitted
    ∧ ∀ earlier, step { s with out := earlier } = .next { t with out := earlier ++ emitted }

/-- Faults are precise (R153): with `N >= 256` the state after a fault is the state before it with `ir` and the status
changed, and the record holds the pc and the opcode byte (R152). -/
def Obligations.FaultsArePrecise : Prop :=
  ∀ (s t : State) (r : FaultRecord), 256 ≤ s.mem.size → step s = .next t → t.status = .faulted r →
    t = { s with ir := t.ir, status := .faulted r } ∧ r.pc = s.pc ∧ r.ir = t.ir

/-- A PUSH is seen by the very next fetch, and a PUSH onto its own bytes does not change the step in progress (R52, R184;
decision D13). -/
def Obligations.StoreIsSeenByTheNextFetch : Prop :=
  ∀ (s t : State) (e sp : Byte), s.mem.wf = true → s.status = .running → codeAt s [opcodeTable.push, e] →
    sp = trunc8 ((s.getReg 7).toNat + 255) → sp.toNat < s.mem.size → step s = .next t →
      t.status = .running ∧ t.pc = s.pc + 2 ∧ t.ir = opcodeTable.push
        ∧ t.mem.read? sp.toNat = some (t.getReg (e.extractLsb' 0 3))
        ∧ ∀ u, step t = .next u → t.pc = sp.toNat → u.ir = t.getReg (e.extractLsb' 0 3)

/-- Every step keeps the machine's invariant: a canonical memory of at least one byte (R8), and a fault record that describes its state (R40, R151,
R152). Only the four kinds of R151 that belong to a step are ever recorded. -/
def Obligations.EveryStepKeepsTheMachineInvariant : Prop :=
  ∀ s t : State, s.Inv → step s = .next t → t.Inv

/-- The state after construction and the state after reset meet the invariant. -/
def Obligations.ResetMeetsTheMachineInvariant : Prop :=
  (∀ c : Config, (State.construct c).Inv) ∧ State.reset.Inv

/-- Every host operation that answers a state keeps the invariant: set, write, load_program, the loader's load, the start
of a run and a whole run (R171, R175 to R178). The others (get, read, trace) answer no state. -/
def Obligations.HostOperationsKeepTheMachineInvariant : Prop :=
  ∀ s t : State, s.Inv →
    (∃ index value, hostSet s index value = .next t)
      ∨ (∃ addr v, hostWrite s addr v = .next t)
      ∨ (∃ bytes start, loadProgram s bytes start = .next t)
      ∨ (∃ source start, loadSource s source start = .next t)
      ∨ startRun s = .next t
      ∨ run s = .next t →
    t.Inv

/-- Every run ends within `N + 1` steps, from whatever memory and registers the host left (R91): no program of this
hardware loops for ever. It rests on a pc that never wraps, decision D3 (log entry 11). -/
def Obligations.EveryRunEndsWithinMemorySizePlusOneSteps : Prop :=
  ∀ s t : State, startRun s = .next t →
    ∃ u, runFor (t.mem.size + 1) t = .next u ∧ u.status ≠ .running

/-! ## Memory, reset and the host -/

/-- A read gives the byte of the most recent write to its address, and every other address reads as before; the memory
stays canonical (R50). -/
def Obligations.ReadGivesTheMostRecentWrite : Prop :=
  ∀ (m m' : Memory) (addr : Nat) (v : Byte), m.wf = true → m.write? addr v = some m' →
    m'.wf = true ∧ ∀ other, m'.read? other = if other = addr then some v else m.read? other

/-- Every access is range-checked (R42): the host's read and write, made while no run is active, fail with OutOfBounds
of the address exactly when it is at or above `N`, and answer otherwise. -/
def Obligations.AccessFailsExactlyOutOfRange : Prop :=
  (∀ (m : Memory) (addr : Nat) (v : Byte),
      (m.read? addr = none ↔ m.size ≤ addr) ∧ (m.write? addr v = none ↔ m.size ≤ addr))
    ∧ ∀ (s : State) (addr : Nat) (v : Byte), s.status ≠ .running →
      (s.mem.size ≤ addr → hostRead s addr = .fault (.hostError (.outOfBounds addr))
        ∧ hostWrite s addr v = .fault (.hostError (.outOfBounds addr)))
      ∧ (addr < s.mem.size → (∃ b, s.mem.read? addr = some b ∧ hostRead s addr = .next b)
        ∧ ∃ m, s.mem.write? addr v = some m ∧ hostWrite s addr v = .next { s with mem := m })

/-- Canonical memories of one size that read the same at every address are equal data (the model's form of memory). -/
def Obligations.MemoriesThatReadTheSameAreEqual : Prop :=
  ∀ m m' : Memory, m.wf = true → m'.wf = true → m.size = m'.size →
    (∀ addr, m.read? addr = m'.read? addr) → m = m'

/-- `set` truncates its value to eight bits and `get` gives it back; no other register changes, and nothing else (R23). -/
def Obligations.SetThenGetIsTheValueModulo256 : Prop :=
  ∀ (s : State) (index value : Nat), s.status ≠ .running →
    ∃ t v, hostSet s index value = .next t ∧ hostGet t index = .next v ∧ v.toNat = value % 256
      ∧ (∀ q : RegIdx, q.toNat ≠ index % 8 → t.getReg q = s.getReg q)
      ∧ t = { s with x := t.x }

/-- `load_program` copies the bytes to `start` onward and writes nothing else, and fails with ProgramTooLarge when they do
not fit (R171); a failed load answers no state (R172, decision D18). -/
def Obligations.LoadProgramCopiesTheBytes : Prop :=
  ∀ (s : State) (bytes : List Nat) (start : Nat), s.status ≠ .running → (∀ b ∈ bytes, b < 256) →
    (start + bytes.length ≤ s.mem.size → s.mem.wf = true →
      ∃ t, loadProgram s bytes start = .next t ∧ t = { s with mem := t.mem }
        ∧ t.mem.size = s.mem.size ∧ t.mem.wf = true
        ∧ ∀ addr, t.mem.read? addr =
          if start ≤ addr ∧ addr < start + bytes.length then bytes[addr - start]?.map trunc8
          else s.mem.read? addr)
    ∧ (s.mem.size < start + bytes.length →
      loadProgram s bytes start = .fault (.hostError .programTooLarge))

/-- The start of a run resets pc, ir, status and out and keeps memory and registers (R178; the values of ir and out by
decisions D5 and D10). -/
def Obligations.RunStartResetsFourFields : Prop :=
  ∀ s : State, s.status ≠ .running →
    startRun s = .next { s with pc := 0, ir := 0, status := .running, out := [] }

/-- What construction and reset leave (R33, R170; decisions D4 and D11): zero memory, the stack pointer at SP_INIT, R0 to
R6 at INIT_REGS. The reset state is a fresh instance at the start of a run (log entry 3), and R0 to R6 are zero there by
the model's choice (log entry 2). -/
def Obligations.ConstructionAndResetValues : Prop :=
  (∀ c : Config, (∀ addr, addr < c.memSize → (State.construct c).mem.read? addr = some 0)
      ∧ (State.construct c).getReg 7 = c.spInit
      ∧ (∀ r : RegIdx, ∀ h : r.toNat < 7, (State.construct c).getReg r = c.initRegs[r.toNat])
      ∧ (State.construct c).mem.size = c.memSize
      ∧ (State.construct c).pc = 0 ∧ (State.construct c).ir = 0
      ∧ (State.construct c).status = .halted ∧ (State.construct c).out = [])
    ∧ startRun (State.construct Config.hardware) = .next State.reset
    ∧ State.reset.mem.size = 256 ∧ State.reset.getReg 7 = 0xF4
    ∧ (∀ r : RegIdx, r ≠ 7 → State.reset.getReg r = 0)
    ∧ State.reset.pc = 0 ∧ State.reset.ir = 0 ∧ State.reset.status = .running ∧ State.reset.out = []

/-- A program loaded at `start` into a fresh instance is reached after `start` NOPs with pc at `start` and nothing else
changed (R182; that the zero byte is NOP is decision D1). -/
def Obligations.ProgramLoadedHigherIsReachedByNops : Prop :=
  ∀ (c : Config) (bytes : List Nat) (start : Nat), (∀ b ∈ bytes, b < 256) →
    start + bytes.length ≤ c.memSize →
    ∃ s t u, loadProgram (State.construct c) bytes start = .next s ∧ startRun s = .next t
      ∧ runFor start t = .next u ∧ u = { t with pc := start }

/-- An output line is the decimal numeral of the byte, at least one digit with no leading zero (`0` for zero), in ASCII, and one LF (R161; the absence of
padding and the terminator by decision D10, log entry 9). -/
def Obligations.OutputLineIsTheDecimalNumeral : Prop :=
  ∀ v : Byte, (decimalDigits v).foldl (fun n d => 10 * n + d) 0 = v.toNat
    ∧ (∀ d ∈ decimalDigits v, d < 10)
    ∧ decimalDigits v ≠ []
    ∧ ((decimalDigits v).head? = some 0 → decimalDigits v = [0])
    ∧ outputLine v = (decimalDigits v).map (fun d => trunc8 (48 + d)) ++ [10]

/-- The trace reports the pc, the three bytes at `pc`, `pc+1` and `pc+2`, unknown at or above `N`, and the eight
registers, each byte as its high and its low hexadecimal digit (R163; which three bytes, and the unknown ones, by decision
D15, log entry 8). It is made only while no run is active (R54; the refusal during a run is log entry 7). -/
def Obligations.TraceReportsThreeBytesAndTheRegisters : Prop :=
  ∀ s : State, (s.status = .running → trace s = .refused .runActive)
    ∧ (s.status ≠ .running → ∃ report, trace s = .next report ∧ report.pc = s.pc
      ∧ report.bytes.length = 3
      ∧ (∀ k, ∀ h : k < 3, ∃ shown, report.bytes[k]? = some shown
          ∧ (s.mem.size ≤ s.pc + k → shown = none)
          ∧ ∀ b, s.mem.read? (s.pc + k) = some b →
            ∃ d, shown = some d ∧ d.1.toNat = b.toNat / 16 ∧ d.2.toNat = b.toNat % 16)
      ∧ ∀ r : RegIdx, report.regs[r.toNat].1.toNat = (s.getReg r).toNat / 16
        ∧ report.regs[r.toNat].2.toNat = (s.getReg r).toNat % 16)
end

