-- ==== Sys2Proof/Laws/Decode.lean ====
section
/-! SUPPORT. The laws of the opcode byte's fields and of the decoder. -/

namespace Sys2Proof

open Machine (familyOfInstr)

theorem operandCount_eq (op : Byte) : operandCount op = op.toNat / 64 := by
  simp only [operandCount, BitVec.extractLsb'_toNat, Nat.shiftRight_eq_div_pow]
  have := op.isLt
  omega

@[simp] theorem regOf_regByte : ∀ r : RegIdx, regOf (regByte r) = r := by decide

theorem regByte_toNat (r : RegIdx) : (regByte r).toNat = r.toNat := by
  have := r.isLt
  simp [regByte]
  omega

@[simp] theorem familyOf_pcByte : ∀ aa dddd, familyOf (pcByte aa dddd) = .pcMutating := by decide

@[simp] theorem pcByte_aa : ∀ aa dddd, (pcByte aa dddd).extractLsb' 6 2 = aa := by decide

@[simp] theorem pcByte_dddd : ∀ aa dddd, (pcByte aa dddd).extractLsb' 0 4 = dddd := by decide

theorem pcByte_of_family :
    ∀ op, familyOf op = .pcMutating → pcByte (op.extractLsb' 6 2) (op.extractLsb' 0 4) = op := by
  decide

theorem familyOf_eq_alu {op : Byte} : familyOf op = .alu ↔ op.getLsbD 5 = true := by
  unfold familyOf; split_ifs <;> simp_all

theorem familyOf_eq_pcMutating {op : Byte} :
    familyOf op = .pcMutating ↔ op.getLsbD 5 = false ∧ op.getLsbD 4 = true := by
  unfold familyOf; split_ifs <;> simp_all

theorem familyOf_eq_direct {op : Byte} :
    familyOf op = .direct ↔ op.getLsbD 5 = false ∧ op.getLsbD 4 = false := by
  unfold familyOf; split_ifs <;> simp_all

/-- What a table that meets the source's constraints says of its bytes. -/
theorem meetsSource_spec {t : OpcodeTable} (h : t.meetsSource = true) :
    (t.directBytes ++ t.aluBytes).Nodup ∧ (∀ b ∈ t.directBytes, familyOf b = .direct) ∧
      (∀ b ∈ t.aluBytes, familyOf b = .alu) := by
  simp only [OpcodeTable.meetsSource, Bool.and_eq_true, decide_eq_true_eq, List.all_eq_true, beq_iff_eq] at h
  exact ⟨h.1.1.1.1, h.1.1.1.2, h.1.1.2⟩

theorem opcodeTable_meetsSource : opcodeTable.meetsSource = true := by decide

variable {ε ε' : Type} {t : OpcodeTable} {op : Byte}

/-- The instruction the exact match of an ALU-family byte selects has that byte, belongs to the family and is
well-formed. -/
theorem selectAlu_spec (hf : familyOf op = .alu) (a b : RegIdx) :
    (selectAlu t op a b).wf t = true ∧ (selectAlu t op a b).opcode t = op ∧
      familyOfInstr (selectAlu t op a b) = .alu := by
  have h5 := familyOf_eq_alu.1 hf
  unfold selectAlu
  split_ifs <;>
    simp_all [Instr.wf, Instr.opcode, familyOfInstr, OpcodeTable.isUnsupportedAlu, OpcodeTable.aluBytes]

theorem withRegister_ok {f : Nat → Except ε Byte} {mk : RegIdx → Instr} {i : Instr} :
    withRegister f mk = .ok i ↔ ∃ b, f 1 = .ok b ∧ i = mk (regOf b) := by
  unfold withRegister
  cases f 1 <;> simp [eq_comm]

theorem withRegister_error {f : Nat → Except ε Byte} {mk : RegIdx → Instr} {e : ε} :
    withRegister f mk = .error e ↔ f 1 = .error e := by
  unfold withRegister
  cases f 1 <;> simp

theorem withTwoBytes_ok {f : Nat → Except ε Byte} {mk : Byte → Byte → Instr} {i : Instr} :
    withTwoBytes f mk = .ok i ↔ ∃ b1 b2, f 1 = .ok b1 ∧ f 2 = .ok b2 ∧ i = mk b1 b2 := by
  unfold withTwoBytes
  cases f 1 <;> cases f 2 <;> simp [eq_comm]

theorem withTwoBytes_error {f : Nat → Except ε Byte} {mk : Byte → Byte → Instr} {e : ε} :
    withTwoBytes f mk = .error e ↔ f 1 = .error e ∨ ∃ b, f 1 = .ok b ∧ f 2 = .error e := by
  unfold withTwoBytes
  cases f 1 <;> cases f 2 <;> simp

/-- The decoder reads the opcode byte from the instruction, whatever reads the operands. -/
theorem decodeOperands_spec {f : Nat → Except ε Byte} {i : Instr} (h : decodeOperands t op f = .ok i) :
    i.wf t = true ∧ i.opcode t = op ∧ familyOfInstr i = familyOf op := by
  unfold decodeOperands at h
  split at h
  · rename_i hf
    obtain ⟨_, _, -, -, rfl⟩ := withTwoBytes_ok.1 h
    simpa [hf] using selectAlu_spec hf _ _
  · rename_i hf
    cases h
    simp [Instr.wf, Instr.opcode, familyOfInstr, pcByte_of_family op hf, hf]
  · rename_i hf
    have hd := familyOf_eq_direct.1 hf
    split_ifs at h <;>
      first
      | (cases h; simp_all [Instr.wf, Instr.opcode, familyOfInstr, OpcodeTable.isUnsupportedDirect,
          OpcodeTable.directBytes])
      | (obtain ⟨_, -, rfl⟩ := withRegister_ok.1 h; simp_all [Instr.wf, Instr.opcode, familyOfInstr])
      | (obtain ⟨_, _, -, -, rfl⟩ := withTwoBytes_ok.1 h; simp_all [Instr.wf, Instr.opcode, familyOfInstr])

/-- The decoder fails only where an operand read fails. -/
theorem decodeOperands_error {f : Nat → Except ε Byte} {e : ε} (h : decodeOperands t op f = .error e) :
    f 1 = .error e ∨ f 2 = .error e := by
  unfold decodeOperands at h
  split at h
  · exact (withTwoBytes_error.1 h).imp id fun ⟨_, _, h2⟩ => h2
  · cases h
  · split_ifs at h <;>
      first
      | cases h
      | exact .inl (withRegister_error.1 h)
      | exact (withTwoBytes_error.1 h).imp id fun ⟨_, _, h2⟩ => h2

/-- Two ways of reading the operands that agree give the same instruction. -/
theorem decodeOperands_mono {f : Nat → Except ε Byte} {g : Nat → Except ε' Byte} {i : Instr}
    (hfg : ∀ k b, f k = .ok b → g k = .ok b) (h : decodeOperands t op f = .ok i) :
    decodeOperands t op g = .ok i := by
  have two : ∀ {mk : Byte → Byte → Instr}, withTwoBytes f mk = .ok i → withTwoBytes g mk = .ok i := fun h => by
    obtain ⟨b1, b2, h1, h2, rfl⟩ := withTwoBytes_ok.1 h
    exact withTwoBytes_ok.2 ⟨b1, b2, hfg _ _ h1, hfg _ _ h2, rfl⟩
  have one : ∀ {mk : RegIdx → Instr}, withRegister f mk = .ok i → withRegister g mk = .ok i := fun h => by
    obtain ⟨b, h1, rfl⟩ := withRegister_ok.1 h
    exact withRegister_ok.2 ⟨b, hfg _ _ h1, rfl⟩
  unfold decodeOperands at h ⊢
  split at h
  · exact two h
  · cases h; rfl
  · split_ifs at h ⊢ <;>
      first
      | (cases h; rfl)
      | exact one h
      | exact two h

/-- Where both operand reads answer, the decoder answers. -/
theorem decodeOperands_total {f : Nat → Except ε Byte} {b1 b2 : Byte} (h1 : f 1 = .ok b1) (h2 : f 2 = .ok b2) :
    ∃ i, decodeOperands t op f = .ok i := by
  cases h : decodeOperands t op f with
  | ok i => exact ⟨i, rfl⟩
  | error e => rcases decodeOperands_error h with h' | h' <;> simp_all

theorem decodeWith_cons (rest : List Byte) :
    decodeWith t (op :: rest) = decodeOperands t op (listByte (op :: rest)) := rfl

theorem listByte_ok {bytes : List Byte} {k : Nat} {b : Byte} : listByte bytes k = .ok b ↔ bytes[k]? = some b := by
  unfold listByte
  cases bytes[k]? <;> simp

end Sys2Proof
end

