-- ==== Sys2Proof/Laws/Memory.lean ====
section
/-! SUPPORT. The laws of memory: when an access is out of range, what a read gives after a write, and that every operation
keeps the canonical form. -/

namespace Sys2Proof.Machine

theorem cellsWf_cons {size lo a : Nat} {v : Byte} {rest : List Host.Cell} :
    cellsWf size lo ((a, v) :: rest) = true ↔
      lo ≤ a ∧ a < size ∧ v ≠ Config.blankByte ∧ cellsWf size (a + 1) rest = true := by
  simp [cellsWf, and_assoc]

theorem cellsWf_mono {size lo lo' : Nat} (h : lo' ≤ lo) {cells : List Host.Cell}
    (hw : cellsWf size lo cells = true) : cellsWf size lo' cells = true := by
  cases cells with
  | nil => rfl
  | cons c rest =>
    obtain ⟨h1, h2⟩ := cellsWf_cons.1 hw
    exact cellsWf_cons.2 ⟨h.trans h1, h2⟩

/-- Below the first address a canonical list may hold, every address holds the blank byte. -/
theorem cellsRead_below {size lo addr : Nat} {cells : List Host.Cell} (hw : cellsWf size lo cells = true)
    (h : addr < lo) : cellsRead cells addr = Config.blankByte := by
  cases cells with
  | nil => rfl
  | cons c rest =>
    have h1 := (cellsWf_cons.1 hw).1
    simp [cellsRead, show addr < c.1 by omega]

theorem cellsRead_cellOf_append {addr : Nat} {v : Byte} {rest : List Host.Cell} {size b : Nat}
    (hw : cellsWf size (addr + 1) rest = true) :
    cellsRead (cellOf addr v ++ rest) b = if b = addr then v else if b < addr then Config.blankByte
      else cellsRead rest b := by
  have below := fun h : b < addr + 1 => cellsRead_below hw h
  unfold cellOf
  rcases Nat.lt_trichotomy b addr with h | rfl | h
  · split <;> simp [cellsRead, h, h.ne, below (by omega)]
  · split
    · simp_all
    · simp [cellsRead]
  · split
    · simp [h.ne', show ¬ b < addr by omega]
    · simp [cellsRead, h.ne', show ¬ b < addr by omega]

/-- Read after write. -/
theorem cellsRead_cellsWrite {size addr : Nat} {v : Byte} {cells : List Host.Cell} :
    ∀ {lo : Nat}, cellsWf size lo cells = true → ∀ b,
      cellsRead (cellsWrite cells addr v) b = if b = addr then v else cellsRead cells b := by
  induction cells with
  | nil =>
    intro _ _ b
    have := cellsRead_cellOf_append (v := v) (b := b) (show cellsWf size (addr + 1) [] = true from rfl)
    simp only [List.append_nil] at this
    simp [cellsWrite, this, cellsRead]
  | cons c rest ih =>
    obtain ⟨a, w⟩ := c
    intro lo hw b
    obtain ⟨h1, h2, h3, h4⟩ := cellsWf_cons.1 hw
    unfold cellsWrite
    split
    · rename_i hlt
      rw [cellsRead_cellOf_append (cellsWf_cons.2 ⟨hlt, h2, h3, h4⟩)]
      split
      · rfl
      · simp only [cellsRead]
        split_ifs <;> first | rfl | omega
    · split
      · rename_i heq
        subst heq
        rw [cellsRead_cellOf_append h4]
        simp only [cellsRead]
        split <;> simp_all
      · simp only [cellsRead, ih h4 b]
        split_ifs <;> first | rfl | omega

/-- A write keeps the canonical form. -/
theorem cellsWf_cellsWrite {size addr : Nat} {v : Byte} (ha : addr < size) {cells : List Host.Cell} :
    ∀ {lo : Nat}, lo ≤ addr → cellsWf size lo cells = true →
      cellsWf size lo (cellsWrite cells addr v) = true := by
  have hcell : ∀ {lo : Nat} {rest : List Host.Cell}, lo ≤ addr → cellsWf size (addr + 1) rest = true →
      cellsWf size lo (cellOf addr v ++ rest) = true := by
    intro lo rest hlo hw
    unfold cellOf
    split
    · exact cellsWf_mono (by omega) hw
    · exact cellsWf_cons.2 ⟨hlo, ha, ‹_›, hw⟩
  induction cells with
  | nil =>
    intro lo hlo _
    simpa [cellsWrite] using hcell hlo (show cellsWf size (addr + 1) [] = true from rfl)
  | cons c rest ih =>
    obtain ⟨a, w⟩ := c
    intro lo hlo hw
    obtain ⟨h1, h2, h3, h4⟩ := cellsWf_cons.1 hw
    unfold cellsWrite
    split
    · exact hcell hlo (cellsWf_cons.2 ⟨‹_›, h2, h3, h4⟩)
    · split
      · rename_i heq
        subst heq
        exact hcell hlo h4
      · exact cellsWf_cons.2 ⟨h1, h2, h3, ih (by omega) h4⟩

@[simp] theorem read?_eq_none {m : Memory} {addr : Nat} : m.read? addr = none ↔ m.size ≤ addr := by
  simp [Memory.read?]

@[simp] theorem write?_eq_none {m : Memory} {addr : Nat} {v : Byte} :
    m.write? addr v = none ↔ m.size ≤ addr := by
  simp [Memory.write?]

theorem lt_size_of_read? {m : Memory} {addr : Nat} {b : Byte} (h : m.read? addr = some b) : addr < m.size := by
  by_contra hn
  rw [read?_eq_none.2 (by omega)] at h
  cases h

theorem read?_of_lt {m : Memory} {addr : Nat} (h : addr < m.size) : ∃ b, m.read? addr = some b :=
  ⟨_, if_pos h⟩

/-- Everything a write that answers does: the address was in range, the size is kept, a canonical memory stays canonical,
and every other address reads as before. -/
theorem write?_spec {m m' : Memory} {addr : Nat} {v : Byte} (h : m.write? addr v = some m') :
    addr < m.size ∧ m'.size = m.size ∧
      (m.wf = true → m'.wf = true ∧ ∀ b, m'.read? b = if b = addr then some v else m.read? b) := by
  have ha : addr < m.size := by
    by_contra hn
    rw [write?_eq_none.2 (by omega)] at h
    cases h
  simp only [Memory.write?, if_pos ha, Option.some.injEq] at h
  subst h
  refine ⟨ha, rfl, fun hw => ⟨cellsWf_cellsWrite ha (Nat.zero_le _) hw, fun b => ?_⟩⟩
  simp only [Memory.read?, cellsRead_cellsWrite hw]
  split_ifs <;> simp_all

theorem write?_of_lt {m : Memory} {addr : Nat} (v : Byte) (h : addr < m.size) :
    ∃ m', m.write? addr v = some m' :=
  ⟨_, if_pos h⟩

/-- Everything storing a list of bytes in range does. -/
theorem storeBytes_spec {bytes : List Byte} : ∀ {m : Memory} {addr : Nat}, m.wf = true →
    (storeBytes m addr bytes).size = m.size ∧ (storeBytes m addr bytes).wf = true ∧
      (addr + bytes.length ≤ m.size → ∀ b, (storeBytes m addr bytes).read? b =
        if addr ≤ b ∧ b < addr + bytes.length then bytes[b - addr]? else m.read? b) := by
  induction bytes with
  | nil =>
    intro m addr hw
    refine ⟨rfl, hw, fun _ b => ?_⟩
    simp only [List.length_nil, Nat.add_zero]
    rw [if_neg (by omega)]
    rfl
  | cons v rest ih =>
    intro m addr hw
    simp only [storeBytes]
    by_cases ha : addr < m.size
    · obtain ⟨m', hm'⟩ := write?_of_lt v ha
      obtain ⟨_, hsize, hk⟩ := write?_spec hm'
      obtain ⟨hw', hread⟩ := hk hw
      obtain ⟨i1, i2, i3⟩ := ih (addr := addr + 1) hw'
      simp only [hm', Option.getD_some]
      refine ⟨i1.trans hsize, i2, fun hlen b => ?_⟩
      simp only [List.length_cons] at hlen ⊢
      rw [i3 (by omega) b, hread b]
      by_cases hb : b = addr
      · subst hb; simp
      · by_cases hin : addr + 1 ≤ b ∧ b < addr + 1 + rest.length
        · rw [if_pos hin, if_pos (by omega), show b - addr = (b - (addr + 1)) + 1 by omega,
            List.getElem?_cons_succ]
        · rw [if_neg hin, if_neg hb, if_neg (by omega)]
    · rw [write?_eq_none.2 (by omega), Option.getD_none]
      obtain ⟨i1, i2, _⟩ := ih (addr := addr + 1) hw
      exact ⟨i1, i2, fun hlen => by simp only [List.length_cons] at hlen; omega⟩

theorem reset_mem_wf : State.reset.mem.wf = true := rfl

end Sys2Proof.Machine
end

