-- ==== Sys2Proof/Laws/State.lean ====
section
/-! SUPPORT. One lemma per field per update of State, and reading a register after a write. -/

namespace Sys2Proof.Machine

@[simp] theorem setReg_mem (s : State) (r : RegIdx) (v : Byte) : (s.setReg r v).mem = s.mem := rfl
@[simp] theorem setReg_pc (s : State) (r : RegIdx) (v : Byte) : (s.setReg r v).pc = s.pc := rfl
@[simp] theorem setReg_ir (s : State) (r : RegIdx) (v : Byte) : (s.setReg r v).ir = s.ir := rfl
@[simp] theorem setReg_status (s : State) (r : RegIdx) (v : Byte) : (s.setReg r v).status = s.status := rfl
@[simp] theorem setReg_out (s : State) (r : RegIdx) (v : Byte) : (s.setReg r v).out = s.out := rfl

@[simp] theorem emit_mem (s : State) (v : Byte) : (s.emit v).mem = s.mem := rfl
@[simp] theorem emit_x (s : State) (v : Byte) : (s.emit v).x = s.x := rfl
@[simp] theorem emit_pc (s : State) (v : Byte) : (s.emit v).pc = s.pc := rfl
@[simp] theorem emit_ir (s : State) (v : Byte) : (s.emit v).ir = s.ir := rfl
@[simp] theorem emit_status (s : State) (v : Byte) : (s.emit v).status = s.status := rfl
@[simp] theorem emit_out (s : State) (v : Byte) : (s.emit v).out = s.out ++ [v] := rfl

@[simp] theorem advance_mem (s : State) : s.advance.mem = s.mem := rfl
@[simp] theorem advance_x (s : State) : s.advance.x = s.x := rfl
@[simp] theorem advance_pc (s : State) : s.advance.pc = s.pc + 1 + operandCount s.ir := rfl
@[simp] theorem advance_ir (s : State) : s.advance.ir = s.ir := rfl
@[simp] theorem advance_status (s : State) : s.advance.status = s.status := rfl
@[simp] theorem advance_out (s : State) : s.advance.out = s.out := rfl

@[simp] theorem raise_mem (s : State) (k : ErrorKind) : (s.raise k).mem = s.mem := rfl
@[simp] theorem raise_x (s : State) (k : ErrorKind) : (s.raise k).x = s.x := rfl
@[simp] theorem raise_pc (s : State) (k : ErrorKind) : (s.raise k).pc = s.pc := rfl
@[simp] theorem raise_ir (s : State) (k : ErrorKind) : (s.raise k).ir = s.ir := rfl
@[simp] theorem raise_status (s : State) (k : ErrorKind) :
    (s.raise k).status = .faulted { kind := k, pc := s.pc, ir := s.ir } := rfl
@[simp] theorem raise_out (s : State) (k : ErrorKind) : (s.raise k).out = s.out := rfl

@[simp] theorem getReg_emit (s : State) (v : Byte) (q : RegIdx) : (s.emit v).getReg q = s.getReg q := rfl
@[simp] theorem getReg_advance (s : State) (q : RegIdx) : s.advance.getReg q = s.getReg q := rfl
@[simp] theorem getReg_raise (s : State) (k : ErrorKind) (q : RegIdx) : (s.raise k).getReg q = s.getReg q := rfl
/-- The registers of a state built from another's register file are that state's. -/
@[simp] theorem getReg_mk_x (s : State) (m : Memory) (n : Nat) (b : Byte) (st : RunStatus) (o : List Byte)
    (q : RegIdx) : State.getReg { mem := m, x := s.x, pc := n, ir := b, status := st, out := o } q = s.getReg q := rfl

theorem getReg_setReg (s : State) (r q : RegIdx) (v : Byte) :
    (s.setReg r v).getReg q = if q = r then v else s.getReg q := by
  simp only [State.getReg, State.setReg, Vector.getElem_set, BitVec.toNat_inj, eq_comm]

@[simp] theorem getReg_setReg_same (s : State) (r : RegIdx) (v : Byte) : (s.setReg r v).getReg r = v := by
  simp [getReg_setReg]

@[simp] theorem getReg_setReg_of_ne (s : State) {r q : RegIdx} (v : Byte) (h : q ≠ r) :
    (s.setReg r v).getReg q = s.getReg q := by
  simp [getReg_setReg, h]

/-- Two register files with the same registers are the same. -/
theorem x_ext {s t : State} (h : ∀ q, t.getReg q = s.getReg q) : t.x = s.x := by
  apply Vector.ext
  intro i hi
  simpa [State.getReg, Nat.mod_eq_of_lt hi] using h (BitVec.ofNat 3 i)

end Sys2Proof.Machine
end

