-- ==== Sys2Proof/Laws/Exec.lean ====
section
/-! SUPPORT. What the meanings can do: one lemma per shared operation, and one that says of every instruction how it ends.
-/

namespace Sys2Proof.Machine

theorem aluApply_ok {op : AluOp} {a b : RegIdx} {s t : State} :
    aluApply op a b s = .ok t ↔ ∃ v, aluResult op (s.getReg a) (s.getReg b) = .ok v ∧ t = s.setReg a v := by
  unfold aluApply
  cases aluResult op (s.getReg a) (s.getReg b) <;> simp [eq_comm]

theorem aluApply_error {op : AluOp} {a b : RegIdx} {s : State} {k : ErrorKind} :
    aluApply op a b s = .error k ↔ aluResult op (s.getReg a) (s.getReg b) = .error k := by
  unfold aluApply
  cases aluResult op (s.getReg a) (s.getReg b) <;> simp

/-- An ALU instruction whose result is defined writes it to `x[a]` and advances. -/
theorem execAlu_of_ok {op : AluOp} {a b : RegIdx} {s : State} {v : Byte}
    (h : aluResult op (s.getReg a) (s.getReg b) = .ok v) : execAlu op a b s = .next (s.setReg a v).advance := by
  simp [execAlu, aluApply, h, complete]

/-- An ALU instruction whose operation raises takes the fault and writes nothing else. -/
theorem execAlu_of_error {op : AluOp} {a b : RegIdx} {s : State} {k : ErrorKind}
    (h : aluResult op (s.getReg a) (s.getReg b) = .error k) : execAlu op a b s = .next (s.raise k) := by
  simp [execAlu, aluApply, h, takeFault]

/-- The result of SUB and DEC as a natural number. -/
theorem truncInt8_sub_toNat {m n : Nat} (hm : m < 256) (hn : n < 256) :
    (truncInt8 ((m : Int) - n)).toNat = (m + 256 - n) % 256 := by
  simp only [truncInt8, BitVec.toNat_ofInt]
  omega

/-- The stack pointer after the decrement of a PUSH. -/
def pushedSp (s : State) : Byte := truncInt8 (((s.getReg spReg).toNat : Int) - 1)

theorem pushedSp_toNat (s : State) : (pushedSp s).toNat = ((s.getReg spReg).toNat + 255) % 256 := by
  have := truncInt8_sub_toNat (s.getReg spReg).isLt (n := 1) (by omega)
  simp only [Nat.cast_one] at this
  rw [pushedSp, this]
  omega

theorem aluApply_dec_sp (s : State) : aluApply .dec spReg spReg s = .ok (s.setReg spReg (pushedSp s)) := rfl

/-- PUSH in range: the decrement, then the store of the register's value after it. -/
theorem execPush_of_some {r : RegIdx} {s : State} {m : Memory}
    (h : s.mem.write? (pushedSp s).toNat ((s.setReg spReg (pushedSp s)).getReg r) = some m) :
    execPush r s = .next (State.advance { s.setReg spReg (pushedSp s) with mem := m }) := by
  simp only [execPush, aluApply_dec_sp, getReg_setReg_same, setReg_mem, h]
  rfl

/-- PUSH out of range: the decrement stands and the fault is taken. -/
theorem execPush_of_none {r : RegIdx} {s : State} (h : s.mem.size ≤ (pushedSp s).toNat) :
    execPush r s = .next ((s.setReg spReg (pushedSp s)).raise (.outOfBounds (pushedSp s).toNat)) := by
  simp only [execPush, aluApply_dec_sp, getReg_setReg_same, setReg_mem, write?_eq_none.2 h]
  rfl

/-- POP in range: the load, then the increment, which reads `x[7]` after the load. -/
theorem execPop_of_some {r : RegIdx} {s : State} {v : Byte} (h : s.mem.read? (s.getReg spReg).toNat = some v) :
    execPop r s =
      .next ((s.setReg r v).setReg spReg (trunc8 (((s.setReg r v).getReg spReg).toNat + 1))).advance := by
  simp [execPop, h, aluApply, aluResult, complete]

/-- POP out of range: the fault, and nothing written. -/
theorem execPop_of_none {r : RegIdx} {s : State} (h : s.mem.size ≤ (s.getReg spReg).toNat) :
    execPop r s = .next (s.raise (.outOfBounds (s.getReg spReg).toNat)) := by
  simp [execPop, read?_eq_none.2 h, takeFault]

/-- The faults an instruction can take with nothing written before them. -/
def raises (i : Instr) (s : State) (k : ErrorKind) : Prop :=
  match i with
  | .div _ b => k = .divisionByZero ∧ s.getReg b = 0
  | .mod _ b => k = .divisionByZero ∧ s.getReg b = 0
  | .pop _ => ∃ addr, k = .outOfBounds addr ∧ s.mem.size ≤ addr ∧ addr < 256
  | .unsupportedAlu op _ _ => k = .unsupportedAluOp op
  | .unsupportedDirect op => k = .unsupportedOpcode op s.pc
  | _ => False

/-- How an instruction ends: it advances with the status it had, it halts, or it takes a fault of its own. -/
inductive Ending (i : Instr) (s t : State) : Prop where
  | advances (status : t.status = s.status) (pc : t.pc = s.pc + 1 + operandCount s.ir)
  | halts (instr : i = .hlt) (state : t = { s with status := .halted })
  | faults (k : ErrorKind) (kind : raises i s k) (state : t = s.raise k)
  | faultsAfterDecrement (r : RegIdx) (instr : i = .push r) (range : s.mem.size ≤ (pushedSp s).toNat)
      (state : t = (s.setReg spReg (pushedSp s)).raise (.outOfBounds (pushedSp s).toNat))

/-- Everything true of every instruction: it answers a next state; `ir` and the memory's size stay; a canonical memory
stays canonical; only PUSH changes memory and only PRN the output; and it ends in one of the four ways. -/
theorem exec_spec (i : Instr) (s : State) :
    ∃ t, exec i s = .next t ∧ t.ir = s.ir ∧ t.mem.size = s.mem.size ∧ (s.mem.wf = true → t.mem.wf = true) ∧
      (t.mem = s.mem ∨ ∃ r, i = .push r) ∧ (t.out = s.out ∨ ∃ r, i = .prn r ∧ t.out = s.out ++ [s.getReg r]) ∧
      Ending i s t := by
  have alu : ∀ op a b v, aluResult op (s.getReg a) (s.getReg b) = .ok v → exec i s = execAlu op a b s →
      ∃ t, exec i s = .next t ∧ t.ir = s.ir ∧ t.mem.size = s.mem.size ∧ (s.mem.wf = true → t.mem.wf = true) ∧
        (t.mem = s.mem ∨ ∃ r, i = .push r) ∧ (t.out = s.out ∨ ∃ r, i = .prn r ∧ t.out = s.out ++ [s.getReg r]) ∧
        Ending i s t := fun op a b v hv he =>
    ⟨_, he.trans (execAlu_of_ok hv), rfl, rfl, id, .inl rfl, .inl rfl, .advances rfl rfl⟩
  have fault : ∀ k, raises i s k → exec i s = .next (s.raise k) →
      ∃ t, exec i s = .next t ∧ t.ir = s.ir ∧ t.mem.size = s.mem.size ∧ (s.mem.wf = true → t.mem.wf = true) ∧
        (t.mem = s.mem ∨ ∃ r, i = .push r) ∧ (t.out = s.out ∨ ∃ r, i = .prn r ∧ t.out = s.out ++ [s.getReg r]) ∧
        Ending i s t := fun k hk he =>
    ⟨_, he, rfl, rfl, id, .inl rfl, .inl rfl, .faults k hk rfl⟩
  cases i with
  | nop => exact ⟨_, rfl, rfl, rfl, id, .inl rfl, .inl rfl, .advances rfl rfl⟩
  | hlt => exact ⟨_, rfl, rfl, rfl, id, .inl rfl, .inl rfl, .halts rfl rfl⟩
  | pcReserved aa dddd => exact ⟨_, rfl, rfl, rfl, id, .inl rfl, .inl rfl, .advances rfl rfl⟩
  | ldi r imm => exact ⟨_, rfl, rfl, rfl, id, .inl rfl, .inl rfl, .advances rfl rfl⟩
  | prn r => exact ⟨_, rfl, rfl, rfl, id, .inl rfl, .inr ⟨r, rfl, rfl⟩, .advances rfl rfl⟩
  | add a b => exact alu .add a b _ rfl rfl
  | sub a b => exact alu .sub a b _ rfl rfl
  | mul a b => exact alu .mul a b _ rfl rfl
  | inc a => exact alu .inc a a _ rfl rfl
  | dec a => exact alu .dec a a _ rfl rfl
  | div a b =>
    by_cases h : s.getReg b = 0
    · exact fault _ ⟨rfl, h⟩ (execAlu_of_error (op := .div) (if_pos h))
    · exact alu .div a b _ (if_neg h) rfl
  | mod a b =>
    by_cases h : s.getReg b = 0
    · exact fault _ ⟨rfl, h⟩ (execAlu_of_error (op := .mod) (if_pos h))
    · exact alu .mod a b _ (if_neg h) rfl
  | unsupportedAlu op a b => exact fault (.unsupportedAluOp op) rfl rfl
  | unsupportedDirect op => exact fault (.unsupportedOpcode op s.pc) rfl rfl
  | push r =>
    by_cases h : (pushedSp s).toNat < s.mem.size
    · obtain ⟨m, hm⟩ := write?_of_lt ((s.setReg spReg (pushedSp s)).getReg r) h
      obtain ⟨-, hsize, hk⟩ := write?_spec hm
      exact ⟨_, execPush_of_some hm, rfl, hsize, fun hw => (hk hw).1, .inr ⟨r, rfl⟩, .inl rfl, .advances rfl rfl⟩
    · exact ⟨_, execPush_of_none (by omega), rfl, rfl, id, .inl rfl, .inl rfl,
        .faultsAfterDecrement r rfl (by omega) rfl⟩
  | pop r =>
    by_cases h : (s.getReg spReg).toNat < s.mem.size
    · obtain ⟨v, hv⟩ := read?_of_lt h
      exact ⟨_, execPop_of_some hv, rfl, rfl, id, .inl rfl, .inl rfl, .advances rfl rfl⟩
    · exact fault _ ⟨_, rfl, by omega, (s.getReg spReg).isLt⟩ (execPop_of_none (by omega))

/-- No meaning reads the output sequence: with another one, the instruction does the same and appends the same. -/
theorem exec_out {i : Instr} {s t : State} (h : exec i s = .next t) :
    ∃ emitted, t.out = s.out ++ emitted ∧
      ∀ earlier, exec i { s with out := earlier } = .next { t with out := earlier ++ emitted } := by
  have quiet : ∀ f : State → State, exec i s = .next (f s) → (f s).out = s.out →
      (∀ o, exec i { s with out := o } = .next (f { s with out := o }) ∧
        f { s with out := o } = { f s with out := o }) →
      ∃ emitted, t.out = s.out ++ emitted ∧
        ∀ earlier, exec i { s with out := earlier } = .next { t with out := earlier ++ emitted } := by
    intro f h1 h2 h3
    obtain rfl : f s = t := by rw [h1] at h; cases h; rfl
    exact ⟨[], by simp [h2], fun o => by rw [(h3 o).1, (h3 o).2]; simp⟩
  cases i with
  | nop => exact quiet State.advance rfl rfl fun _ => ⟨rfl, rfl⟩
  | hlt => exact quiet (fun s => { s with status := .halted }) rfl rfl fun _ => ⟨rfl, rfl⟩
  | pcReserved aa dddd => exact quiet State.advance rfl rfl fun _ => ⟨rfl, rfl⟩
  | ldi r imm => exact quiet (fun s => (s.setReg r imm).advance) rfl rfl fun _ => ⟨rfl, rfl⟩
  | prn r => cases h; exact ⟨[s.getReg r], rfl, fun _ => rfl⟩
  | add a b => cases h; exact ⟨[], by simp, fun o => by rw [List.append_nil]; rfl⟩
  | sub a b => cases h; exact ⟨[], by simp, fun o => by rw [List.append_nil]; rfl⟩
  | mul a b => cases h; exact ⟨[], by simp, fun o => by rw [List.append_nil]; rfl⟩
  | inc a => cases h; exact ⟨[], by simp, fun o => by rw [List.append_nil]; rfl⟩
  | dec a => cases h; exact ⟨[], by simp, fun o => by rw [List.append_nil]; rfl⟩
  | unsupportedAlu op a b => cases h; exact ⟨[], by simp, fun o => by rw [List.append_nil]; rfl⟩
  | unsupportedDirect op => cases h; exact ⟨[], by simp, fun o => by rw [List.append_nil]; rfl⟩
  | div a b =>
    by_cases hz : s.getReg b = 0
    · exact quiet (fun s => s.raise .divisionByZero) (execAlu_of_error (op := .div) (if_pos hz)) rfl
        fun _ => ⟨execAlu_of_error (op := .div) (if_pos hz), rfl⟩
    · exact quiet (fun s => (s.setReg a (trunc8 ((s.getReg a).toNat / (s.getReg b).toNat))).advance)
        (execAlu_of_ok (op := .div) (if_neg hz)) rfl fun _ => ⟨execAlu_of_ok (op := .div) (if_neg hz), rfl⟩
  | mod a b =>
    by_cases hz : s.getReg b = 0
    · exact quiet (fun s => s.raise .divisionByZero) (execAlu_of_error (op := .mod) (if_pos hz)) rfl
        fun _ => ⟨execAlu_of_error (op := .mod) (if_pos hz), rfl⟩
    · exact quiet (fun s => (s.setReg a (trunc8 ((s.getReg a).toNat % (s.getReg b).toNat))).advance)
        (execAlu_of_ok (op := .mod) (if_neg hz)) rfl fun _ => ⟨execAlu_of_ok (op := .mod) (if_neg hz), rfl⟩
  | push r =>
    by_cases hr : (pushedSp s).toNat < s.mem.size
    · obtain ⟨m, hm⟩ := write?_of_lt ((s.setReg spReg (pushedSp s)).getReg r) hr
      exact quiet (fun s => State.advance { s.setReg spReg (pushedSp s) with mem := m }) (execPush_of_some hm) rfl
        fun _ => ⟨execPush_of_some hm, rfl⟩
    · exact quiet (fun s => (s.setReg spReg (pushedSp s)).raise (.outOfBounds (pushedSp s).toNat))
        (execPush_of_none (by omega)) rfl fun _ => ⟨execPush_of_none (Nat.le_of_not_lt hr), rfl⟩
  | pop r =>
    by_cases hr : (s.getReg spReg).toNat < s.mem.size
    · obtain ⟨v, hv⟩ := read?_of_lt hr
      exact quiet
        (fun s => ((s.setReg r v).setReg spReg (trunc8 (((s.setReg r v).getReg spReg).toNat + 1))).advance)
        (execPop_of_some hv) rfl fun _ => ⟨execPop_of_some hv, rfl⟩
    · exact quiet (fun s => s.raise (.outOfBounds (s.getReg spReg).toNat)) (execPop_of_none (by omega)) rfl
        fun _ => ⟨execPop_of_none (Nat.le_of_not_lt hr), rfl⟩

/-- What writing one register and advancing leaves as it was. -/
theorem setReg_advance_frame (s : State) (a : RegIdx) (v : Byte) :
    sameButReg a s (s.setReg a v).advance ∧ pcAdvanced s (s.setReg a v).advance :=
  ⟨⟨fun q hq => by simp [hq], rfl, rfl, rfl, rfl⟩, by simp [pcAdvanced, operandCount_eq]⟩

end Sys2Proof.Machine
end

