-- ==== Sys2Proof/Laws/PerInstr.lean ====
section
/-! SUPPORT. The family of statements OpcodeFamily, made per instruction: under every opcode table that meets the source's
constraints (spec/30_encoding.md R66), a well-formed instruction's opcode byte lies in the instruction's family (R65). -/

namespace Sys2Proof.Laws.OpcodeFamily

open Sys2Proof.Machine (familyOfInstr)

/-- The opcode byte of a well-formed instruction lies in the family of the instruction. -/
def Statement (i : Instr) : Prop :=
  ∀ t : OpcodeTable, t.meetsSource = true → i.wf t = true → familyOf (i.opcode t) = familyOfInstr i

theorem direct_byte {t : OpcodeTable} (h : t.meetsSource = true) {b : Byte} (hb : b ∈ t.directBytes) :
    familyOf b = .direct := (meetsSource_spec h).2.1 b hb

theorem alu_byte {t : OpcodeTable} (h : t.meetsSource = true) {b : Byte} (hb : b ∈ t.aluBytes) :
    familyOf b = .alu := (meetsSource_spec h).2.2 b hb

theorem nop : Statement .nop := fun _ h _ => direct_byte h (by simp [OpcodeTable.directBytes, Instr.opcode])
theorem hlt : Statement .hlt := fun _ h _ => direct_byte h (by simp [OpcodeTable.directBytes, Instr.opcode])
theorem push (r : RegIdx) : Statement (.push r) :=
  fun _ h _ => direct_byte h (by simp [OpcodeTable.directBytes, Instr.opcode])
theorem pop (r : RegIdx) : Statement (.pop r) :=
  fun _ h _ => direct_byte h (by simp [OpcodeTable.directBytes, Instr.opcode])
theorem prn (r : RegIdx) : Statement (.prn r) :=
  fun _ h _ => direct_byte h (by simp [OpcodeTable.directBytes, Instr.opcode])
theorem ldi (r : RegIdx) (imm : Byte) : Statement (.ldi r imm) :=
  fun _ h _ => direct_byte h (by simp [OpcodeTable.directBytes, Instr.opcode])
theorem add (a b : RegIdx) : Statement (.add a b) :=
  fun _ h _ => alu_byte h (by simp [OpcodeTable.aluBytes, Instr.opcode])
theorem sub (a b : RegIdx) : Statement (.sub a b) :=
  fun _ h _ => alu_byte h (by simp [OpcodeTable.aluBytes, Instr.opcode])
theorem mul (a b : RegIdx) : Statement (.mul a b) :=
  fun _ h _ => alu_byte h (by simp [OpcodeTable.aluBytes, Instr.opcode])
theorem div (a b : RegIdx) : Statement (.div a b) :=
  fun _ h _ => alu_byte h (by simp [OpcodeTable.aluBytes, Instr.opcode])
theorem mod (a b : RegIdx) : Statement (.mod a b) :=
  fun _ h _ => alu_byte h (by simp [OpcodeTable.aluBytes, Instr.opcode])
theorem inc (a : RegIdx) : Statement (.inc a) :=
  fun _ h _ => alu_byte h (by simp [OpcodeTable.aluBytes, Instr.opcode])
theorem dec (a : RegIdx) : Statement (.dec a) :=
  fun _ h _ => alu_byte h (by simp [OpcodeTable.aluBytes, Instr.opcode])
theorem pcReserved (aa : BitVec 2) (dddd : BitVec 4) : Statement (.pcReserved aa dddd) :=
  fun _ _ _ => familyOf_pcByte aa dddd
theorem unsupportedAlu (op : Byte) (a b : RegIdx) : Statement (.unsupportedAlu op a b) := fun _ _ hw => by
  simp only [Instr.wf, OpcodeTable.isUnsupportedAlu, Bool.and_eq_true] at hw
  exact familyOf_eq_alu.2 hw.1
theorem unsupportedDirect (op : Byte) : Statement (.unsupportedDirect op) := fun _ _ hw => by
  simp only [Instr.wf, OpcodeTable.isUnsupportedDirect, Bool.and_eq_true, Bool.not_eq_true'] at hw
  exact familyOf_eq_direct.2 hw.1

end Sys2Proof.Laws.OpcodeFamily
end

