-- ==== Sys2Proof/Laws/Step.lean ====
section
/-! SUPPORT. What a step can do, said once. -/

namespace Sys2Proof.Machine

theorem operandAt_ok {s : State} {k : Nat} {b : Byte} :
    operandAt s k = .ok b ↔ s.mem.read? (s.pc + k) = some b := by
  unfold operandAt
  cases s.mem.read? (s.pc + k) <;> simp

theorem operandAt_error {s : State} {k addr : Nat} :
    operandAt s k = .error addr ↔ addr = s.pc + k ∧ s.mem.size ≤ s.pc + k := by
  unfold operandAt
  cases h : s.mem.read? (s.pc + k) with
  | none => simp [read?_eq_none.1 h, eq_comm]
  | some b => simpa using fun _ => lt_size_of_read? h

/-- A step runs the instruction its bytes decode to. -/
theorem step_of_decode {s : State} {op : Byte} {i : Instr} (hr : s.status = .running)
    (hf : s.mem.read? s.pc = some op) (hd : decodeOperands opcodeTable op (operandAt s) = .ok i) :
    step s = exec i { s with ir := op } := by
  simp [step, stepWith, hr, fetchInstr, hf, hd]

/-- A step whose operand read is out of range (R88). -/
theorem step_of_operand_error {s : State} {op : Byte} {addr : Nat} (hr : s.status = .running)
    (hf : s.mem.read? s.pc = some op) (hd : decodeOperands opcodeTable op (operandAt s) = .error addr) :
    step s = .next (State.raise { s with ir := op } (.outOfBounds addr)) := by
  simp [step, stepWith, hr, fetchInstr, hf, hd]

/-- Everything a step can do. -/
inductive StepCase (s t : State) : Prop where
  /-- The fetch is out of range. -/
  | fetch (range : s.mem.size ≤ s.pc) (state : t = s.raise (.outOfBounds s.pc))
  /-- An operand read is out of range. -/
  | operand (op : Byte) (addr : Nat) (byte : s.mem.read? s.pc = some op)
      (failed : decodeOperands opcodeTable op (operandAt s) = .error addr) (range : s.mem.size ≤ addr)
      (state : t = State.raise { s with ir := op } (.outOfBounds addr))
  /-- An instruction of the fetched byte runs. -/
  | runs (i : Instr) (op : Byte) (byte : s.mem.read? s.pc = some op)
      (decoded : decodeOperands opcodeTable op (operandAt s) = .ok i) (wf : i.wf opcodeTable = true)
      (opcode : i.opcode opcodeTable = op) (state : exec i { s with ir := op } = .next t)

/-- Every step of a running machine answers a next state, in one of three ways. -/
theorem step_cases {s : State} (hr : s.status = .running) : ∃ t, step s = .next t ∧ StepCase s t := by
  cases hf : s.mem.read? s.pc with
  | none =>
    have h := read?_eq_none.1 hf
    exact ⟨_, by simp [step, stepWith, hr, fetchInstr, hf], .fetch h rfl⟩
  | some op =>
    cases hd : decodeOperands opcodeTable op (operandAt s) with
    | error addr =>
      refine ⟨_, step_of_operand_error hr hf hd, ?_⟩
      rcases decodeOperands_error hd with h | h <;> obtain ⟨rfl, hs⟩ := operandAt_error.1 h <;>
        exact .operand op _ hf hd hs rfl
    | ok i =>
      obtain ⟨hw, ho, -⟩ := decodeOperands_spec hd
      obtain ⟨t, ht, -⟩ := exec_spec i { s with ir := op }
      exact ⟨t, (step_of_decode hr hf hd).trans ht, .runs i op hf hd hw ho ht⟩

/-- The form an invariant's proof cites. -/
theorem step_inversion {s t : State} (h : step s = .next t) : s.status = .running ∧ StepCase s t := by
  have hr : s.status = .running := by
    unfold step stepWith at h
    split at h <;> first | assumption | cases h
  obtain ⟨t', ht, hc⟩ := step_cases hr
  rw [ht] at h
  cases h
  exact ⟨hr, hc⟩

/-- A byte whose decoding reads two operands faults on each where it is out of range. -/
theorem readsTwoOperands_of_decode {op : Byte}
    (hd : ∀ f : Nat → Except Nat Byte, ∃ mk, decodeOperands opcodeTable op f = withTwoBytes f mk) :
    readsTwoOperands op := by
  refine ⟨fun s hr hf hs => ?_, fun s hr hf hs => ?_⟩ <;> obtain ⟨mk, hmk⟩ := hd (operandAt s)
  · exact step_of_operand_error hr hf (hmk.trans (withTwoBytes_error.2 (.inl (operandAt_error.2 ⟨rfl, hs⟩))))
  · obtain ⟨b, hb⟩ := read?_of_lt (m := s.mem) (addr := s.pc + 1) (by omega)
    exact step_of_operand_error hr hf
      (hmk.trans (withTwoBytes_error.2 (.inr ⟨b, operandAt_ok.2 hb, operandAt_error.2 ⟨rfl, by omega⟩⟩)))

/-- A byte whose decoding reads one operand faults where it is out of range. -/
theorem readsOneOperand_of_decode {op : Byte} {mk : RegIdx → Instr}
    (hd : ∀ f : Nat → Except Nat Byte, decodeOperands opcodeTable op f = withRegister f mk) :
    readsOneOperand op := fun _ hr hf hs =>
  step_of_operand_error hr hf ((hd _).trans (withRegister_error.2 (operandAt_error.2 ⟨rfl, hs⟩)))

theorem whenIdle_of_idle {α : Type} {s : State} (h : s.status ≠ .running) (answer : Host.Outcome α Fault Refusal) :
    whenIdle s answer = answer := by
  unfold whenIdle
  split <;> simp_all

theorem answer_of_whenIdle {α : Type} {s : State} {answer : Host.Outcome α Fault Refusal} {a : α}
    (h : whenIdle s answer = .next a) : answer = .next a := by
  unfold whenIdle at h
  split at h <;> simp_all

/-- A run that is not RUNNING takes no step. -/
theorem runForWith_of_not_running {t : OpcodeTable} {n : Nat} {s : State} (h : s.status ≠ .running) :
    runForWith t n s = .next s := by
  cases n with
  | zero => rfl
  | succ n => unfold runForWith; split <;> simp_all

theorem runFor_of_not_running {n : Nat} {s : State} (h : s.status ≠ .running) : runFor n s = .next s :=
  runForWith_of_not_running h

/-- A run takes one step and goes on. -/
theorem runFor_succ {n : Nat} {s t : State} (h : step s = .next t) : runFor (n + 1) s = runFor n t := by
  have hr := (step_inversion h).1
  simp only [step] at h
  simp [runFor, runForWith, hr, h]

/-- A property that every step keeps holds at the end of a run. -/
theorem runFor_keeps {p : State → Prop} (hp : ∀ {s t}, p s → step s = .next t → p t) :
    ∀ {n : Nat} {s u : State}, p s → runFor n s = .next u → p u := by
  intro n
  induction n with
  | zero => intro s u hs h; cases h; exact hs
  | succ n ih =>
    intro s u hs h
    by_cases hr : s.status = .running
    · obtain ⟨t, ht, -⟩ := step_cases hr
      rw [runFor_succ ht] at h
      exact ih (hp hs ht) h
    · rw [runFor_of_not_running hr] at h
      cases h
      exact hs

/-- The machine of this hardware's configuration is the one the host takes (R8). -/
theorem machineOf_hardware : machineOf Config.hardware = Sys2Proof.core := rfl

end Sys2Proof.Machine
end

