-- ==== Sys2Proof/Tests/Slice0.lean ====
section
/-! SUPPORT. Small tests, with expected results from spec/95_test_vectors.md (the vector's id stands at each), the smoke
tests of WellFormed, and a witness for the hypotheses of every statement. -/

namespace Sys2Proof.Tests

open Sys2Proof Sys2Proof.Machine

/-- The reset state with bytes placed at `pc`, and the next fetch there. -/
def place (pc : Nat) (code : List Byte) : State :=
  { State.reset with pc := pc, mem := storeBytes State.reset.mem pc code }

/-- The state with registers set. -/
def withRegs (s : State) (regs : List (RegIdx × Byte)) : State :=
  match regs with
  | [] => s
  | (r, v) :: rest => withRegs (s.setReg r v) rest

/-- The same state in a memory of another size. -/
def withSize (s : State) (size : Nat) : State := { s with mem := { s.mem with size := size } }

/-- One step answers a next state with the property. -/
def stepped (s : State) (p : State → Bool) : Bool :=
  match step s with
  | .next t => p t
  | .fault _ => false
  | .refused _ => false

/-- An outcome is a next state with the property. -/
def answers (o : Host.Outcome State Fault Refusal) (p : State → Bool) : Bool :=
  match o with
  | .next t => p t
  | .fault _ => false
  | .refused _ => false

/-- The state the spec's fault leaves: the start state with `ir` and the status changed. -/
def faultFrom (s : State) (op : Byte) (k : ErrorKind) : State := faultedWith k { s with ir := op }

/-! ## WellFormed: each check refuses an ill-formed term -/

theorem test_wf_refuses_alu_instruction_byte : (Instr.unsupportedAlu 0xA0 0 0).wf opcodeTable = false := by decide
theorem test_wf_refuses_byte_outside_alu : (Instr.unsupportedAlu 0x02 0 0).wf opcodeTable = false := by decide
theorem test_wf_refuses_direct_instruction_byte : (Instr.unsupportedDirect 0x82).wf opcodeTable = false := by decide
theorem test_wf_refuses_alu_byte_as_direct : (Instr.unsupportedDirect 0xA5).wf opcodeTable = false := by decide
theorem test_wf_refuses_pc_byte_as_direct : (Instr.unsupportedDirect 0x54).wf opcodeTable = false := by decide
theorem test_wf_accepts_unsupported :
    (Instr.unsupportedAlu 0xA5 0 0).wf opcodeTable = true ∧ (Instr.unsupportedDirect 0x41).wf opcodeTable = true := by
  decide

/-! ## Decoding of words written out from R62 and R66, every constructor (L2.5) -/

theorem test_decode_nop : decode [0b00000000] = .ok .nop := rfl
theorem test_decode_hlt : decode [0b00000001] = .ok .hlt := rfl
theorem test_decode_push : decode [0b01000101, 0b00000011] = .ok (.push 3) := rfl
theorem test_decode_pop : decode [0b01000110, 0b11111001] = .ok (.pop 1) := rfl
theorem test_decode_prn : decode [0b01000111, 0b00000111] = .ok (.prn 7) := rfl
theorem test_decode_ldi : decode [0b10000010, 0x0D, 0xFF] = .ok (.ldi 5 255) := rfl
theorem test_decode_add : decode [0b10100000, 0xF8, 0x09] = .ok (.add 0 1) := rfl
theorem test_decode_sub : decode [0b10100001, 0x04, 0x05] = .ok (.sub 4 5) := rfl
theorem test_decode_mul : decode [0b10100010, 0x00, 0x02] = .ok (.mul 0 2) := rfl
theorem test_decode_div : decode [0b10100011, 0x03, 0x01] = .ok (.div 3 1) := rfl
theorem test_decode_mod : decode [0b10100100, 0x05, 0x06] = .ok (.mod 5 6) := rfl
theorem test_decode_inc : decode [0b01100101, 0x03, 0x47] = .ok (.inc 3) := rfl
theorem test_decode_dec : decode [0b01100110, 0x01, 0x00] = .ok (.dec 1) := rfl
theorem test_decode_pc_family : decode [0b01010100] = .ok (.pcReserved 1 4) := rfl
theorem test_decode_unsupported_alu : decode [0xFF, 0x00, 0x01] = .ok (.unsupportedAlu 0xFF 0 1) := rfl
theorem test_decode_unsupported_direct : decode [0x41] = .ok (.unsupportedDirect 0x41) := rfl
theorem test_decode_rejects_by_name :
    decode [] = .error .noOpcode ∧ decode [0x82, 0x00] = .error (.missingByte 2) := ⟨rfl, rfl⟩
theorem test_encode_ldi : encode (.ldi 0 8) = [0x82, 0x00, 0x08] := rfl
theorem test_encode_pc_family : encode (.pcReserved 3 0) = [0xD0, 0, 0, 0] := rfl
theorem test_table_word : decodeTableWord 24 0x080182 = some (.ldi 1 8) := rfl
theorem test_fetch_word :
    stepped (State.reset.withFetchWord 24 0x080182) (fun t => t.getReg 1 == 8 && t.pc == 3) = true := by decide

/-! ## One step of each instruction -/

/-- VA5. -/
theorem test_add_masks_operands :
    stepped (withRegs (place 0x10 [0xA0, 0xF8, 0x09]) [(0, 3), (1, 4)])
      (fun t => t.getReg 0 == 7 && t.getReg 1 == 4 && t.pc == 0x13) = true := by decide
/-- VA1. -/
theorem test_add_wraps :
    stepped (withRegs (place 0x10 [0xA0, 0x00, 0x01]) [(0, 200), (1, 100)]) (fun t => t.getReg 0 == 44) = true := by
  decide
/-- VA8. -/
theorem test_sub_wraps :
    stepped (withRegs (place 0x10 [0xA1, 0x00, 0x01]) [(0, 5), (1, 9)]) (fun t => t.getReg 0 == 252) = true := by
  decide
/-- VA9. -/
theorem test_sub_same_register :
    stepped (withRegs (place 0x10 [0xA1, 0x04, 0x04]) [(4, 77)]) (fun t => t.getReg 4 == 0) = true := by decide
/-- VA13. -/
theorem test_mul_squares :
    stepped (withRegs (place 0x10 [0xA2, 0x00, 0x00]) [(0, 255)]) (fun t => t.getReg 0 == 1) = true := by decide
/-- VA15. -/
theorem test_div_floor :
    stepped (withRegs (place 0x10 [0xA3, 0x00, 0x01]) [(0, 7), (1, 2)]) (fun t => t.getReg 0 == 3) = true := by decide
/-- VA20. -/
theorem test_div_by_zero :
    let s := withRegs (place 0x10 [0xA3, 0x00, 0x01]) [(0, 9)]
    stepped s (fun t => t == faultFrom s 0xA3 .divisionByZero) = true := by decide
/-- VA26. -/
theorem test_mod :
    stepped (withRegs (place 0x10 [0xA4, 0x00, 0x01]) [(0, 255), (1, 16)]) (fun t => t.getReg 0 == 15) = true := by
  decide
/-- VA27. -/
theorem test_mod_by_zero :
    let s := withRegs (place 0x10 [0xA4, 0x00, 0x01]) [(0, 200)]
    stepped s (fun t => t == faultFrom s 0xA4 .divisionByZero) = true := by decide
/-- VA29. -/
theorem test_inc_wraps :
    stepped (withRegs (place 0x10 [0x65, 0x03]) [(3, 0xFF)]) (fun t => t.getReg 3 == 0 && t.pc == 0x12) = true := by
  decide
/-- VA36. -/
theorem test_inc_reads_the_unused_byte :
    let s := place 254 [0x65, 0x00]
    stepped s (fun t => t == faultFrom s 0x65 (.outOfBounds 256)) = true := by decide
/-- VA34. -/
theorem test_dec_wraps_the_stack_pointer :
    stepped (withRegs (place 0x10 [0x66, 0x07]) [(7, 0)]) (fun t => t.getReg 7 == 255 && t.pc == 0x12) = true := by
  decide
/-- VA38. -/
theorem test_unsupported_alu :
    let s := place 0x10 [0xA5, 0x00, 0x01]
    stepped s (fun t => t == faultFrom s 0xA5 (.unsupportedAluOp 0xA5)) = true := by decide
/-- VA42. -/
theorem test_unsupported_alu_at_the_end :
    let s := place 255 [0xFF]
    stepped s (fun t => t == faultFrom s 0xFF (.outOfBounds 256)) = true := by decide
/-- VS3. -/
theorem test_push_stack_pointer :
    stepped (place 0x10 [0x45, 0x07]) (fun t => t.getReg 7 == 0xF3 && t.mem.read? 0xF3 == some 0xF3) = true := by
  decide
/-- VS11. -/
theorem test_push_out_of_range :
    stepped (withSize (place 0x10 [0x45, 0x00]) 0xF0) (fun t => t.getReg 7 == 0xF3
      && t.status == .faulted { kind := .outOfBounds 0xF3, pc := 0x10, ir := 0x45 }) = true := by decide
/-- VS4. -/
theorem test_pop_stack_pointer :
    stepped (withRegs { place 0x10 [0x46, 0x07] with
        mem := storeBytes (place 0x10 [0x46, 0x07]).mem 0xF3 [0x10] } [(7, 0xF3)])
      (fun t => t.getReg 7 == 0x11 && t.pc == 0x12) = true := by decide
/-- VS12. -/
theorem test_pop_out_of_range :
    let s := withSize (place 0x10 [0x46, 0x00]) 0xF0
    stepped s (fun t => t == faultFrom s 0x46 (.outOfBounds 0xF4)) = true := by decide
/-- VD1. -/
theorem test_nop : stepped (place 5 [0x00]) (fun t => t == place 6 []) = true := by decide
/-- VD3. -/
theorem test_hlt_at_the_end :
    stepped (place 255 [0x01]) (fun t => t.status == .halted && t.pc == 255 && t.ir == 0x01) = true := by decide
/-- VD7. -/
theorem test_prn_stack_pointer :
    stepped (place 0x10 [0x47, 0x07]) (fun t => t.out == [244] && t.pc == 0x12) = true := by decide
/-- VD11. -/
theorem test_ldi_masks_its_register :
    stepped (place 0x10 [0x82, 0x0D, 0xFF]) (fun t => t.getReg 5 == 0xFF && t.pc == 0x13) = true := by decide
/-- VD12. -/
theorem test_ldi_out_of_range :
    let s := withRegs (place 254 [0x82, 0x01]) [(1, 9)]
    stepped s (fun t => t == faultFrom s 0x82 (.outOfBounds 256)) = true := by decide
/-- VD18. -/
theorem test_unsupported_direct_at_the_end :
    let s := place 255 [0xCF]
    stepped s (fun t => t == faultFrom s 0xCF (.unsupportedOpcode 0xCF 255)) = true := by decide
/-- VP8. -/
theorem test_pc_family_reads_nothing :
    stepped (place 253 [0xD0]) (fun t => t.pc == 257 && t.status == .running) = true := by decide

/-! ## The host operations (L2.6) and the output line -/

/-- VH1 and VH2. -/
theorem test_set_then_get :
    answers (hostSet State.constructed 11 300) (fun t => t.getReg 3 == 44) = true := by decide
/-- VH10 and VH11. -/
theorem test_load_limits :
    loadProgram State.constructed [7] 256 = .fault (.hostError .programTooLarge)
      ∧ answers (loadProgram State.constructed [] 256) (fun t => t == State.constructed) = true := ⟨rfl, by decide⟩
/-- VH12, the whole run: NOPs at 0, 1 and 2, then HLT at 3. -/
theorem test_run_reaches_hlt :
    answers (loadProgram State.constructed [0x01] 3) (fun s => answers (run s)
      (fun t => t.status == .halted && t.pc == 3 && t.out == [])) = true := by decide +kernel
/-- R161's two lines, `8` and `42`. -/
theorem test_output_lines : outputLine 8 = [0x38, 0x0A] ∧ outputLine 42 = [0x34, 0x32, 0x0A] := by decide

/-- Another `OPC` runs its own bytes: with HLT and NOP exchanged, the zero byte halts (R8, D1). -/
theorem test_run_under_another_table :
    answers (runWith { opcodeTable with nop := 0x01, hlt := 0x00 } State.constructed)
      (fun t => t.status == .halted && t.pc == 0) = true := by decide

/-! ## Witnesses: the hypotheses of each statement are met -/

/-- Bytes at 0x10 that the step runs. -/
abbrev runsWitness (op : Byte) : Prop :=
  (place 0x10 [op, 0xF8, 0x09]).status = .running ∧ codeAt (place 0x10 [op, 0xF8, 0x09]) [op, 0xF8, 0x09]

/-- The opcode byte at the last address, so that `pc+1` is out of range. -/
abbrev oneReadWitness (op : Byte) : Prop :=
  (place 255 [op]).status = .running ∧ (place 255 [op]).mem.read? (place 255 [op]).pc = some op
    ∧ (place 255 [op]).mem.size ≤ (place 255 [op]).pc + 1

/-- The same, and the opcode byte at the last address but one, so that `pc+2` is out of range. -/
abbrev twoReadsWitness (op : Byte) : Prop :=
  oneReadWitness op ∧ (place 254 [op, 0]).status = .running
    ∧ (place 254 [op, 0]).mem.read? (place 254 [op, 0]).pc = some op
    ∧ (place 254 [op, 0]).mem.size = (place 254 [op, 0]).pc + 2

/-- The opcode byte alone at 0x10. -/
abbrev byteWitness (op : Byte) : Prop :=
  (place 0x10 [op]).status = .running ∧ (place 0x10 [op]).mem.read? (place 0x10 [op]).pc = some op

theorem witness_DecodeOfEncodeIsTheInstruction :
    opcodeTable.meetsSource = true ∧ (Instr.unsupportedAlu 0xA5 7 7).wf opcodeTable = true
      ∧ (Instr.unsupportedDirect 0xCF).wf opcodeTable = true ∧ (Instr.ldi 7 0xFF).wf opcodeTable = true := by decide
theorem witness_FamilyIsChosenByBitFiveThenBitFour :
    decode [0x30, 0, 0] = .ok (.unsupportedAlu 0x30 0 0) ∧ decode [0x1F] = .ok (.pcReserved 0 15)
      ∧ decode [0x0F] = .ok (.unsupportedDirect 0x0F) := ⟨rfl, rfl, rfl⟩
theorem witness_UnlistedBytesDecodeToTheirClass :
    ((0x20 : Byte).getLsbD 5 = true ∧ (0x20 : Byte) ∉ opcodeTable.aluBytes)
      ∧ ((0xDF : Byte).getLsbD 5 = false ∧ (0xDF : Byte).getLsbD 4 = true)
      ∧ ((0x02 : Byte).getLsbD 5 = false ∧ (0x02 : Byte).getLsbD 4 = false
        ∧ (0x02 : Byte) ∉ opcodeTable.directBytes) := by decide
theorem witness_EncodingIsOnePlusOperandCountLong :
    ∃ i : Instr, (∀ op a b, i ≠ .unsupportedAlu op a b) ∧ (∀ op, i ≠ .unsupportedDirect op) ∧ (encode i).length = 4 :=
  ⟨.pcReserved 3 15, by simp, by simp, rfl⟩
theorem witness_StepRunsTheDecodedInstruction :
    runsWitness 0xA0 ∧ decode [0xA0, 0xF8, 0x09] = .ok (.add 0 1) := ⟨by decide, rfl⟩
theorem witness_FetchOutOfRangeFaults :
    (place 256 []).status = .running ∧ (place 256 []).mem.size ≤ (place 256 []).pc := by decide
theorem witness_AluFamilyReadsTwoOperandsFirst :
    (0x20 : Byte).getLsbD 5 = true ∧ twoReadsWitness 0x20 ∧ twoReadsWitness opcodeTable.div := by decide
theorem witness_OtherFamiliesReadOnlyTheirOperands :
    (oneReadWitness opcodeTable.push ∧ oneReadWitness opcodeTable.pop ∧ oneReadWitness opcodeTable.prn)
      ∧ (codeAt (place 254 [opcodeTable.push, 7]) [opcodeTable.push, 7]
        ∧ codeAt (place 254 [opcodeTable.pop, 7]) [opcodeTable.pop, 7]
        ∧ codeAt (place 254 [opcodeTable.prn, 7]) [opcodeTable.prn, 7])
      ∧ (twoReadsWitness opcodeTable.ldi ∧ codeAt (place 253 [opcodeTable.ldi, 7, 1]) [opcodeTable.ldi, 7, 1])
      ∧ (oneReadWitness 0xDF ∧ (0xDF : Byte).getLsbD 5 = false ∧ (0xDF : Byte).getLsbD 4 = true)
      ∧ (oneReadWitness 0xCF ∧ (0xCF : Byte).getLsbD 5 = false
        ∧ (0xCF : Byte) ∉ [opcodeTable.push, opcodeTable.pop, opcodeTable.prn, opcodeTable.ldi]) := by decide
theorem witness_RunningStepAnswersANextState : State.reset.status = .running := rfl
theorem witness_NoStepOutsideARun :
    State.constructed.status ≠ .running ∧ (State.reset.raise .divisionByZero).status ≠ .running := by decide
theorem witness_AddWritesTheSumModulo256 : runsWitness opcodeTable.add ∧ twoReadsWitness opcodeTable.add := by decide
theorem witness_SubWritesTheDifferenceModulo256 : runsWitness opcodeTable.sub ∧ twoReadsWitness opcodeTable.sub := by
  decide
theorem witness_MulWritesTheProductModulo256 : runsWitness opcodeTable.mul ∧ twoReadsWitness opcodeTable.mul := by
  decide
theorem witness_DivWritesTheQuotientOrFaults :
    runsWitness opcodeTable.div ∧ twoReadsWitness opcodeTable.div
      ∧ (State.reset.getReg 7).toNat ≠ 0 ∧ (State.reset.getReg 1).toNat = 0 := by decide
theorem witness_ModWritesTheRemainderOrFaults :
    runsWitness opcodeTable.mod ∧ twoReadsWitness opcodeTable.mod
      ∧ (State.reset.getReg 7).toNat ≠ 0 ∧ (State.reset.getReg 1).toNat = 0 := by decide
theorem witness_IncAddsOneModulo256 : runsWitness opcodeTable.inc ∧ twoReadsWitness opcodeTable.inc := by decide
theorem witness_DecSubtractsOneModulo256 : runsWitness opcodeTable.dec ∧ twoReadsWitness opcodeTable.dec := by decide
theorem witness_UnsupportedAluByteFaults :
    (0xFF : Byte).getLsbD 5 = true ∧ (0xFF : Byte) ∉ opcodeTable.aluBytes ∧ runsWitness 0xFF ∧ twoReadsWitness 0xFF := by
  decide
theorem witness_PushDecrementsThenStores :
    State.reset.mem.wf = true ∧ (0xF3 : Byte) = trunc8 ((State.reset.getReg 7).toNat + 255)
      ∧ (0xF3 : Byte).toNat < State.reset.mem.size ∧ runsWitness opcodeTable.push := by decide
/-- The stack pointer wraps from 0 to the last byte of memory (VS5). -/
theorem witness_PushDecrementsThenStores_wraps :
    let s := State.reset.setReg 7 0
    s.mem.wf = true ∧ (0xFF : Byte) = trunc8 ((s.getReg 7).toNat + 255) ∧ (0xFF : Byte).toNat < s.mem.size := by decide
theorem witness_PushOutOfRangeKeepsTheDecrement :
    (0xF3 : Byte) = trunc8 (((withSize State.reset 0xF3).getReg 7).toNat + 255)
      ∧ (withSize State.reset 0xF3).mem.size ≤ (0xF3 : Byte).toNat := by decide
theorem witness_PopLoadsThenIncrements :
    State.reset.mem.read? (State.reset.getReg 7).toNat = some 0
      ∧ ((0 : RegIdx) ≠ 7) ∧ runsWitness opcodeTable.pop := by decide
/-- The stack pointer wraps from the last byte of memory to 0 (VS6). -/
theorem witness_PopLoadsThenIncrements_wraps :
    let s := { State.reset.setReg 7 0xFF with mem := storeBytes State.reset.mem 0xFF [5] }
    s.mem.read? (s.getReg 7).toNat = some 5 ∧ (2 : RegIdx) ≠ 7 := by decide
theorem witness_PopOutOfRangeChangesNothing :
    (withSize State.reset 0xF4).mem.size ≤ ((withSize State.reset 0xF4).getReg 7).toNat := by decide
theorem witness_PushThenPopRestores :
    State.reset.mem.wf = true ∧ ((State.reset.getReg 7).toNat + 255) % 256 < State.reset.mem.size := by decide
theorem witness_NopOnlyAdvances : byteWitness opcodeTable.nop := by decide
theorem witness_HltHaltsWithoutAdvance : byteWitness opcodeTable.hlt := by decide
theorem witness_PrnAppendsTheRegister : runsWitness opcodeTable.prn ∧ oneReadWitness opcodeTable.prn := by decide
theorem witness_LdiLoadsTheImmediate : runsWitness opcodeTable.ldi ∧ twoReadsWitness opcodeTable.ldi := by decide
theorem witness_UnsupportedDirectByteFaults :
    byteWitness 0xCF ∧ (0xCF : Byte).getLsbD 5 = false ∧ (0xCF : Byte).getLsbD 4 = false
      ∧ (0xCF : Byte) ∉ opcodeTable.directBytes := by decide
theorem witness_ReservedByteOnlyAdvances :
    byteWitness 0x54 ∧ (0x54 : Byte).getLsbD 5 = false ∧ (0x54 : Byte).getLsbD 4 = true := by decide

/-- A step from reset memory runs NOP and goes on. -/
theorem witness_AdvanceDependsOnTheOpcodeByteOnly :
    ∃ s t : State, step s = .next t ∧ t.status = .running := ⟨State.reset, _, rfl, rfl⟩
theorem witness_HaltAndFaultLeaveThePc :
    (∃ s t : State, step s = .next t ∧ t.status = .halted)
      ∧ ∃ (s t : State) (r : FaultRecord), step s = .next t ∧ t.status = .faulted r :=
  ⟨⟨place 7 [0x01], _, rfl, rfl⟩, place 256 [], _, _, rfl, rfl⟩
theorem witness_IrHoldsTheFetchedByte : ∃ s t : State, step s = .next t := ⟨State.reset, _, rfl⟩
theorem witness_OnlyPushWritesMemory :
    ∃ s t : State, s.mem.wf = true ∧ step s = .next t ∧ t.mem ≠ s.mem :=
  ⟨place 0x10 [0x45, 0x07], _, rfl, rfl, by decide⟩
theorem witness_OnlyPrnWritesOutput : ∃ s t : State, step s = .next t ∧ t.out ≠ s.out :=
  ⟨place 0x10 [0x47, 0x07], _, rfl, by decide⟩
theorem witness_OnlyHltHalts : ∃ s t : State, step s = .next t ∧ t.status = .halted :=
  ⟨place 255 [0x01], _, rfl, rfl⟩
theorem witness_OutputIsNeverRead : ∃ s t : State, step s = .next t ∧ t.out = s.out ++ [0xF4] :=
  ⟨place 0x10 [0x47, 0x07], _, rfl, by decide⟩
theorem witness_FaultsArePrecise :
    ∃ (s t : State) (r : FaultRecord), 256 ≤ s.mem.size ∧ step s = .next t ∧ t.status = .faulted r :=
  ⟨place 255 [0xCF], _, _, by decide, rfl, rfl⟩
/-- The store lands on the byte the next step fetches. -/
theorem witness_StoreIsSeenByTheNextFetch :
    ∃ (s t u : State) (e sp : Byte), s.mem.wf = true ∧ s.status = .running ∧ codeAt s [opcodeTable.push, e]
      ∧ sp = trunc8 ((s.getReg 7).toNat + 255) ∧ sp.toNat < s.mem.size ∧ step s = .next t
      ∧ step t = .next u ∧ t.pc = sp.toNat :=
  ⟨withRegs (place 6 [0x45, 0x00]) [(7, 9), (0, 1)], _, _, 0, 8, by decide, by decide, by decide, by decide, by decide,
    rfl, rfl, by decide⟩
theorem witness_EveryStepKeepsTheMachineInvariant : ∃ s t : State, s.Inv ∧ step s = .next t :=
  ⟨State.reset, _, ⟨by decide, rfl, fun _ h => by cases h⟩, rfl⟩
theorem witness_HostOperationsKeepTheMachineInvariant :
    ∃ s : State, s.Inv ∧ (∃ t, hostSet s 11 300 = .next t) ∧ (∃ t, hostWrite s 255 1 = .next t)
      ∧ (∃ t, loadProgram s [1, 2] 254 = .next t) ∧ (∃ t, loadSource s (some [1, 2]) 254 = .next t)
      ∧ (∃ t, startRun s = .next t) ∧ ∃ t, run s = .next t :=
  ⟨{ place 0 [0x01] with status := .halted }, ⟨by decide, rfl, fun _ h => by cases h⟩, ⟨_, rfl⟩, ⟨_, rfl⟩, ⟨_, rfl⟩,
    ⟨_, rfl⟩, ⟨_, rfl⟩, _, rfl⟩
theorem witness_EveryRunEndsWithinMemorySizePlusOneSteps : ∃ s t : State, startRun s = .next t :=
  ⟨State.constructed, _, rfl⟩
theorem witness_ReadGivesTheMostRecentWrite :
    ∃ m m' : Memory, m.wf = true ∧ m.write? 255 0x2A = some m' := ⟨State.reset.mem, _, rfl, rfl⟩
theorem witness_AccessFailsExactlyOutOfRange :
    State.constructed.status ≠ .running ∧ State.constructed.mem.size ≤ 256 ∧ 255 < State.constructed.mem.size := by
  decide
theorem witness_MemoriesThatReadTheSameAreEqual :
    ∃ m m' : Memory, m.wf = true ∧ m'.wf = true ∧ m.size = m'.size ∧ ∀ addr, m.read? addr = m'.read? addr :=
  ⟨State.reset.mem, State.reset.mem, rfl, rfl, rfl, fun _ => rfl⟩
theorem witness_SetThenGetIsTheValueModulo256 : State.constructed.status ≠ .running := by decide
theorem witness_LoadProgramCopiesTheBytes :
    State.constructed.status ≠ .running ∧ (∀ b ∈ [0x82, 0x00, 0xFF], b < 256)
      ∧ State.constructed.mem.wf = true ∧ 253 + [0x82, 0x00, 0xFF].length ≤ State.constructed.mem.size
      ∧ State.constructed.mem.size < 254 + [0x82, 0x00, 0xFF].length := by decide
theorem witness_RunStartResetsFourFields :
    State.constructed.status ≠ .running ∧ (State.reset.raise .divisionByZero).status ≠ .running := by decide
theorem witness_ConstructionAndResetValues :
    255 < Config.hardware.memSize ∧ (6 : RegIdx).toNat < 7 ∧ (6 : RegIdx) ≠ 7 := by decide
theorem witness_ProgramLoadedHigherIsReachedByNops :
    (∀ b ∈ [0x01], b < 256) ∧ 3 + [0x01].length ≤ Config.hardware.memSize := by decide
theorem witness_OutputLineIsTheDecimalNumeral : (decimalDigits 0).head? = some 0 := by decide
theorem witness_TraceReportsThreeBytesAndTheRegisters :
    State.reset.status = .running
      ∧ let s := { place 254 [] with status := .halted }
        s.status ≠ .running ∧ s.mem.size ≤ s.pc + 2 ∧ s.mem.read? (s.pc + 1) = some 0 := by
  decide

end Sys2Proof.Tests
end

/-! # Proofs: the state vector, as the host's register operations see it (spec/10_state.md) -/

namespace Sys2Proof.Machine

/-- The host's index names a register by its low three bits (R22). -/
@[simp] theorem regOfIndex_toNat (index : Nat) : (regOfIndex index).toNat = index % 8 :=
  BitVec.toNat_ofNat index 3

theorem hostSet_of_idle {s : State} (h : s.status ≠ .running) (index value : Nat) :
    hostSet s index value = .next (s.setReg (regOfIndex index) (trunc8 value)) :=
  whenIdle_of_idle h _

theorem hostGet_of_idle {s : State} (h : s.status ≠ .running) (index : Nat) :
    hostGet s index = .next (s.getReg (regOfIndex index)) :=
  whenIdle_of_idle h _

/-- `set` leaves the status alone, so `get` answers after it, and with the byte written (R23). -/
theorem hostGet_setReg_regOfIndex {s : State} (h : s.status ≠ .running) (index : Nat) (v : Byte) :
    hostGet (s.setReg (regOfIndex index) v) index = .next v := by
  have idle : (s.setReg (regOfIndex index) v).status ≠ .running := by rwa [setReg_status]
  rw [hostGet_of_idle idle, getReg_setReg_same]

/-- A register that the index does not name reads as before the write (R21, R22). -/
theorem getReg_setReg_regOfIndex_of_ne (s : State) {q : RegIdx} {index : Nat} (v : Byte)
    (h : q.toNat ≠ index % 8) : (s.setReg (regOfIndex index) v).getReg q = s.getReg q := by
  have hne : q ≠ regOfIndex index := fun heq => h (by rw [heq, regOfIndex_toNat])
  exact getReg_setReg_of_ne s v hne

/-- Settles O51: `set` is one register write of the truncated value, and `get` reads that register. -/
theorem setThenGetIsTheValueModulo256 : Obligations.SetThenGetIsTheValueModulo256 := by
  intro s index value idle
  refine ⟨_, trunc8 value, hostSet_of_idle idle index value, hostGet_setReg_regOfIndex idle index _, ?_, ?_, ?_⟩
  · exact BitVec.toNat_ofNat value 8
  · exact fun q hq => getReg_setReg_regOfIndex_of_ne s _ hq
  · rfl

end Sys2Proof.Machine

/-! # Proofs: the host's memory accesses outside a run (spec/20_memory.md) -/

namespace Sys2Proof.Machine

theorem hostRead_of_some {s : State} (idle : s.status ≠ .running) {addr : Nat} {b : Byte}
    (h : s.mem.read? addr = some b) : hostRead s addr = .next b := by
  rw [hostRead, whenIdle_of_idle idle, h]

theorem hostRead_of_size_le {s : State} (idle : s.status ≠ .running) {addr : Nat} (h : s.mem.size ≤ addr) :
    hostRead s addr = .fault (.hostError (.outOfBounds addr)) := by
  rw [hostRead, whenIdle_of_idle idle, read?_eq_none.2 h]

theorem hostWrite_of_some {s : State} (idle : s.status ≠ .running) {addr : Nat} {v : Byte} {m : Memory}
    (h : s.mem.write? addr v = some m) : hostWrite s addr v = .next { s with mem := m } := by
  rw [hostWrite, whenIdle_of_idle idle, h]

theorem hostWrite_of_size_le {s : State} (idle : s.status ≠ .running) {addr : Nat} (v : Byte)
    (h : s.mem.size ≤ addr) : hostWrite s addr v = .fault (.hostError (.outOfBounds addr)) := by
  rw [hostWrite, whenIdle_of_idle idle, write?_eq_none.2 h]

/-- Settles O49: both primitives compare the address with the size alone, and the host's operations follow them. -/
theorem accessFailsExactlyOutOfRange : Obligations.AccessFailsExactlyOutOfRange := by
  refine ⟨fun m addr v => ⟨read?_eq_none, write?_eq_none⟩, fun s addr v idle => ⟨fun outside => ?_, fun inside => ?_⟩⟩
  · exact ⟨hostRead_of_size_le idle outside, hostWrite_of_size_le idle v outside⟩
  · obtain ⟨b, hread⟩ := read?_of_lt inside
    obtain ⟨m, hwrite⟩ := write?_of_lt v inside
    exact ⟨⟨b, hread, hostRead_of_some idle hread⟩, m, hwrite, hostWrite_of_some idle hwrite⟩

end Sys2Proof.Machine

/-! # Proofs: the register operands of each instruction format (spec/30_encoding.md) -/

namespace Sys2Proof

section
variable {t : OpcodeTable} {op : Byte}

/-- Where the opcode byte selects format F1, the byte after it names the one register (R62). -/
theorem decodeWith_of_withRegister {mk : RegIdx → Instr}
    (hop : ∀ operand : Nat → Except DecodeRejection Byte, decodeOperands t op operand = withRegister operand mk)
    (e : Byte) (tail : List Byte) : decodeWith t (op :: e :: tail) = .ok (mk (regOf e)) := by
  rw [decodeWith_cons, hop]
  exact withRegister_ok.2 ⟨e, rfl, rfl⟩

/-- Where the opcode byte selects a format of two operand bytes, they are the two bytes after it (R62). -/
theorem decodeWith_of_withTwoBytes {mk : Byte → Byte → Instr}
    (hop : ∀ operand : Nat → Except DecodeRejection Byte, decodeOperands t op operand = withTwoBytes operand mk)
    (e e' : Byte) (tail : List Byte) : decodeWith t (op :: e :: e' :: tail) = .ok (mk e e') := by
  rw [decodeWith_cons, hop]
  exact withTwoBytes_ok.2 ⟨e, e', rfl, rfl, rfl⟩

/-- Every ALU-family byte reads two register operands, whether its instruction uses both or not (R84). -/
theorem decodeOperands_of_alu {ε : Type} (hf : familyOf op = .alu) (operand : Nat → Except ε Byte) :
    decodeOperands t op operand = withTwoBytes operand fun e e' => selectAlu t op (regOf e) (regOf e') := by
  rw [decodeOperands, hf]

end

/-- An ALU byte of this hardware decodes to what its exact match selects on the named registers (R67). -/
theorem decode_of_mem_aluBytes {op : Byte} {mk : RegIdx → RegIdx → Instr} (hop : op ∈ opcodeTable.aluBytes)
    (hsel : ∀ a b, selectAlu opcodeTable op a b = mk a b) (e e' : Byte) (tail : List Byte) :
    decode (op :: e :: e' :: tail) = .ok (mk (regOf e) (regOf e')) := by
  have hf : familyOf op = .alu := Laws.OpcodeFamily.alu_byte opcodeTable_meetsSource hop
  rw [decode, decodeWith_of_withTwoBytes (decodeOperands_of_alu hf), hsel]

/-- Settles O8: the opcode byte selects the instruction's format, and each format names its registers by `regOf`, the low
three bits of the operand byte. INC and DEC ignore the second of the two bytes the Loop reads (R84). -/
theorem registerOperandIsTheLowThreeBits : Obligations.RegisterOperandIsTheLowThreeBits := by
  intro e e' v tail
  refine ⟨⟨?push, ?pop, ?prn⟩, ?ldi, ⟨?add, ?sub, ?mul, ?div, ?mod⟩, ?inc, ?dec⟩
  case push => exact decodeWith_of_withRegister (fun _ => rfl) e tail
  case pop => exact decodeWith_of_withRegister (fun _ => rfl) e tail
  case prn => exact decodeWith_of_withRegister (fun _ => rfl) e tail
  case ldi => exact decodeWith_of_withTwoBytes (mk := fun r imm => .ldi (regOf r) imm) (fun _ => rfl) e v tail
  case add => exact decode_of_mem_aluBytes (by decide) (fun _ _ => rfl) e e' tail
  case sub => exact decode_of_mem_aluBytes (by decide) (fun _ _ => rfl) e e' tail
  case mul => exact decode_of_mem_aluBytes (by decide) (fun _ _ => rfl) e e' tail
  case div => exact decode_of_mem_aluBytes (by decide) (fun _ _ => rfl) e e' tail
  case mod => exact decode_of_mem_aluBytes (by decide) (fun _ _ => rfl) e e' tail
  case inc => exact decode_of_mem_aluBytes (mk := fun a _ => .inc a) (by decide) (fun _ _ => rfl) e v tail
  case dec => exact decode_of_mem_aluBytes (mk := fun a _ => .dec a) (by decide) (fun _ _ => rfl) e v tail

end Sys2Proof

/-! # Proofs: the loop (spec/40_loop.md) -/

namespace Sys2Proof

/-- Settles O3: the decoder keeps the opcode byte's family, and the byte's bits 5 and 4 choose that family. -/
theorem familyIsChosenByBitFiveThenBitFour : Obligations.FamilyIsChosenByBitFiveThenBitFour := by
  intro op rest i hdec
  have hops : decodeOperands opcodeTable op (listByte (op :: rest)) = .ok i := hdec
  obtain ⟨-, -, hfamily⟩ := decodeOperands_spec hops
  rw [hfamily, familyOf]

end Sys2Proof

namespace Sys2Proof.Machine

theorem ending_of_exec {i : Instr} {s t : State} (h : exec i s = .next t) : Ending i s t := by
  obtain ⟨t', ht', -, -, -, -, -, ending⟩ := exec_spec i s
  cases ht'.symm.trans h
  exact ending

section
variable {i : Instr} {s t : State}

theorem not_halted_of_eq_raise {k : ErrorKind} (h : t = s.raise k) : t.status ≠ .halted := by
  subst h
  nofun

/-- A fault leaves the pc of the state that raised it, and its record names that pc (R89, R152). -/
theorem pc_of_eq_raise {k : ErrorKind} {r : FaultRecord} (h : t = s.raise k) (faulted : t.status = .faulted r) :
    t.pc = s.pc ∧ r.pc = s.pc := by
  subst h
  cases faulted
  exact ⟨rfl, rfl⟩

theorem Ending.hlt_of_halted (ending : Ending i s t) (running : s.status = .running)
    (halted : t.status = .halted) : i = .hlt ∧ t = { s with status := .halted } := by
  cases ending with
  | advances status pc => exact absurd (halted.symm.trans (status.trans running)) nofun
  | halts instr state => exact ⟨instr, state⟩
  | faults k kind state => exact absurd halted (not_halted_of_eq_raise state)
  | faultsAfterDecrement r instr range state => exact absurd halted (not_halted_of_eq_raise state)

/-- A PUSH out of range decrements the stack pointer before its fault (R123); the pc stays all the same. -/
theorem Ending.pc_of_faulted {r : FaultRecord} (ending : Ending i s t) (running : s.status = .running)
    (faulted : t.status = .faulted r) : t.pc = s.pc ∧ r.pc = s.pc := by
  cases ending with
  | advances status pc => exact absurd (faulted.symm.trans (status.trans running)) nofun
  | halts instr state =>
    subst state
    cases faulted
  | faults k kind state => exact pc_of_eq_raise state faulted
  | faultsAfterDecrement q instr range state => exact (pc_of_eq_raise state faulted :)

/-- A step that halts fetched HLT, and changed `ir` and the status only (R132). -/
theorem step_halted (h : step s = .next t) (halted : t.status = .halted) :
    s.mem.read? s.pc = some opcodeTable.hlt ∧ t = { s with ir := opcodeTable.hlt, status := .halted } := by
  obtain ⟨running, hcase⟩ := step_inversion h
  cases hcase with
  | fetch range state => exact absurd halted (not_halted_of_eq_raise state)
  | operand op addr byte failed range state => exact absurd halted (not_halted_of_eq_raise state)
  | runs i op byte decoded wf opcode state =>
    obtain ⟨rfl, rfl⟩ := (ending_of_exec state).hlt_of_halted running halted
    subst opcode
    exact ⟨byte, rfl⟩

/-- A step that faults, at the fetch, at an operand read or in its instruction, leaves the pc at the instruction, and
the fault's record names it (R89, R152). -/
theorem step_faulted_pc {r : FaultRecord} (h : step s = .next t) (faulted : t.status = .faulted r) :
    t.pc = s.pc ∧ r.pc = s.pc := by
  obtain ⟨running, hcase⟩ := step_inversion h
  cases hcase with
  | fetch range state => exact pc_of_eq_raise state faulted
  | operand op addr byte failed range state => exact (pc_of_eq_raise state faulted :)
  | runs i op byte decoded wf opcode state => exact (ending_of_exec state).pc_of_faulted running faulted

end

/-- Settles O36: a halting step is HLT's, which keeps the pc and the memory, and no fault of a step moves the pc. -/
theorem haltAndFaultLeaveThePc : Obligations.HaltAndFaultLeaveThePc := by
  refine fun s t h => ⟨fun halted => ?_, fun r faulted => step_faulted_pc h faulted⟩
  obtain ⟨byte, rfl⟩ := step_halted h halted
  exact ⟨rfl, byte⟩

end Sys2Proof.Machine

/-! # Proofs: the ALU family (spec/41_alu.md) -/

namespace Sys2Proof

/-- The truncation of a negative integer wraps: `%` on integers is not negative (R10). -/
theorem natCast_toNat_truncInt8 (n : Int) : ((truncInt8 n).toNat : Int) = n % 256 := by
  rw [truncInt8, BitVec.toNat_ofInt]
  exact Int.toNat_of_nonneg (Int.emod_nonneg n (by decide))

end Sys2Proof

namespace Sys2Proof.Machine

/-- An instruction that is an ALU operation with a defined result writes that to its first register alone, and advances
(R100). -/
theorem exec_writes_aluResult {i : Instr} {op : AluOp} {a b : RegIdx} {s : State} {v : Byte}
    (hexec : exec i s = execAlu op a b s) (result : aluResult op (s.getReg a) (s.getReg b) = .ok v) :
    ∃ t, exec i s = .next t ∧ t.getReg a = v ∧ sameButReg a s t ∧ pcAdvanced s t := by
  obtain ⟨frame, pc⟩ := setReg_advance_frame s a v
  refine ⟨_, hexec.trans (execAlu_of_ok result), ?_, frame, pc⟩
  rw [getReg_advance, getReg_setReg_same]

section
variable {op : Byte} (hop : familyOf op = .alu)
include hop

/-- The operand reads are the family's, before any look at the instruction (R84, R88). -/
theorem readsTwoOperands_of_alu : readsTwoOperands op :=
  readsTwoOperands_of_decode fun f => ⟨_, decodeOperands_of_alu hop f⟩

theorem runsTwoRegisters_of_alu {mk : RegIdx → RegIdx → Instr}
    (hsel : ∀ a b, selectAlu opcodeTable op a b = mk a b) : runsTwoRegisters op mk := by
  intro s ea eb running code
  have first : operandAt s 1 = .ok ea := operandAt_ok.2 (code 1 (by simp))
  have second : operandAt s 2 = .ok eb := operandAt_ok.2 (code 2 (by simp))
  have fetched : s.mem.read? s.pc = some op := code 0 (by simp)
  apply step_of_decode running fetched
  rw [decodeOperands_of_alu hop]
  exact withTwoBytes_ok.2 ⟨ea, eb, first, second, (hsel _ _).symm⟩

end

/-- Settles O16: the sum is ADD's result in every state, and its byte is an ALU byte that selects ADD. -/
theorem addWritesTheSumModulo256 : Obligations.AddWritesTheSumModulo256 := by
  have hop : familyOf opcodeTable.add = .alu := by decide
  refine ⟨fun s a b => ?_, by decide, runsTwoRegisters_of_alu hop fun _ _ => rfl, readsTwoOperands_of_alu hop⟩
  obtain ⟨t, run, sum, frame, pc⟩ := exec_writes_aluResult (i := .add a b) (op := .add) (s := s) rfl rfl
  exact ⟨t, run, by rw [sum, BitVec.toNat_ofNat], frame, pc⟩

/-- Settles O17: the truncated difference is SUB's result in every state, and its byte is an ALU byte that selects SUB. -/
theorem subWritesTheDifferenceModulo256 : Obligations.SubWritesTheDifferenceModulo256 := by
  have hop : familyOf opcodeTable.sub = .alu := by decide
  refine ⟨fun s a b => ?_, by decide, runsTwoRegisters_of_alu hop fun _ _ => rfl, readsTwoOperands_of_alu hop⟩
  obtain ⟨t, run, difference, frame, pc⟩ := exec_writes_aluResult (i := .sub a b) (op := .sub) (s := s) rfl rfl
  exact ⟨t, run, by rw [difference, natCast_toNat_truncInt8], frame, pc⟩

/-- Settles O18: the product is MUL's result in every state, and its byte is an ALU byte that selects MUL. -/
theorem mulWritesTheProductModulo256 : Obligations.MulWritesTheProductModulo256 := by
  have hop : familyOf opcodeTable.mul = .alu := by decide
  refine ⟨fun s a b => ?_, by decide, runsTwoRegisters_of_alu hop fun _ _ => rfl, readsTwoOperands_of_alu hop⟩
  obtain ⟨t, run, product, frame, pc⟩ := exec_writes_aluResult (i := .mul a b) (op := .mul) (s := s) rfl rfl
  exact ⟨t, run, by rw [product, BitVec.toNat_ofNat], frame, pc⟩

end Sys2Proof.Machine

/-! # Proofs: the direct-effect family (spec/43_direct_effect.md) -/

namespace Sys2Proof

section
variable {ε : Type} (operand : Nat → Except ε Byte)

/-- HLT reads no operand byte (R132). -/
theorem decodeOperands_hlt : decodeOperands opcodeTable opcodeTable.hlt operand = .ok .hlt := rfl

theorem decodeOperands_prn : decodeOperands opcodeTable opcodeTable.prn operand = withRegister operand .prn := rfl

theorem decodeOperands_ldi :
    decodeOperands opcodeTable opcodeTable.ldi operand = withTwoBytes operand fun r v => .ldi (regOf r) v := rfl

end

end Sys2Proof

namespace Sys2Proof.Machine

/-- The opcode byte is fetched and the byte after it is the first operand read (R84). -/
theorem reads_of_codeAt_cons_cons {s : State} {op e : Byte} {tail : List Byte} (code : codeAt s (op :: e :: tail)) :
    s.mem.read? s.pc = some op ∧ operandAt s 1 = .ok e :=
  ⟨code 0 (by simp), operandAt_ok.2 (code 1 (by simp))⟩

section
variable {op : Byte}

theorem runsOneRegister_of_decode {mk : RegIdx → Instr}
    (hop : ∀ f : Nat → Except Nat Byte, decodeOperands opcodeTable op f = withRegister f mk) :
    runsOneRegister op mk := by
  intro s e running code
  obtain ⟨fetched, first⟩ := reads_of_codeAt_cons_cons code
  apply step_of_decode running fetched
  rw [hop]
  exact withRegister_ok.2 ⟨e, first, rfl⟩

/-- The step runs what its opcode byte makes of the two bytes after it (R62, R84). -/
theorem step_of_withTwoBytes {mk : Byte → Byte → Instr}
    (hop : ∀ f : Nat → Except Nat Byte, decodeOperands opcodeTable op f = withTwoBytes f mk)
    {s : State} {e e' : Byte} (running : s.status = .running) (code : codeAt s [op, e, e']) :
    step s = exec (mk e e') { s with ir := op } := by
  obtain ⟨fetched, first⟩ := reads_of_codeAt_cons_cons code
  have second : operandAt s 2 = .ok e' := operandAt_ok.2 (code 2 (by simp))
  apply step_of_decode running fetched
  rw [hop]
  exact withTwoBytes_ok.2 ⟨e, e', first, second, rfl⟩

end

theorem exec_hlt (s : State) : exec .hlt s = .next { s with status := .halted } := rfl

theorem exec_prn (r : RegIdx) (s : State) : exec (.prn r) s = .next (s.emit (s.getReg r)).advance := rfl

theorem exec_ldi (r : RegIdx) (v : Byte) (s : State) : exec (.ldi r v) s = .next (s.setReg r v).advance := rfl

theorem pcAdvanced_emit_advance (s : State) (v : Byte) : pcAdvanced s (s.emit v).advance := by
  simp [pcAdvanced, operandCount_eq]

/-- Settles O30: HLT reads no operand, so its step is its meaning, wherever its byte stands. -/
theorem hltHaltsWithoutAdvance : Obligations.HltHaltsWithoutAdvance := by
  refine ⟨exec_hlt, fun s running fetched => ?_⟩
  rw [step_of_decode running fetched (decodeOperands_hlt _), exec_hlt]

/-- Settles O31: PRN is one `emit` and the advance, and its byte is of the format with one register operand. -/
theorem prnAppendsTheRegister : Obligations.PrnAppendsTheRegister := by
  refine ⟨fun s r => ?_, by decide, runsOneRegister_of_decode decodeOperands_prn,
    readsOneOperand_of_decode decodeOperands_prn⟩
  exact ⟨_, exec_prn r s, rfl, fun _ => rfl, rfl, rfl, rfl, pcAdvanced_emit_advance s _⟩

/-- Settles O32: LDI is one register write and the advance, and its byte is of the format with two operand bytes. -/
theorem ldiLoadsTheImmediate : Obligations.LdiLoadsTheImmediate := by
  refine ⟨fun s r v => ?_, by decide, fun s e v running code => step_of_withTwoBytes decodeOperands_ldi running code,
    readsTwoOperands_of_decode fun f => ⟨_, decodeOperands_ldi f⟩⟩
  obtain ⟨frame, pc⟩ := setReg_advance_frame s r v
  refine ⟨_, exec_ldi r v s, ?_, frame, pc⟩
  rw [getReg_advance, getReg_setReg_same]

end Sys2Proof.Machine

/-! # Proofs: the decoder and the encoder (spec/30_encoding.md) -/

namespace Sys2Proof

open Laws.OpcodeFamily (direct_byte alu_byte)

section
variable {t : OpcodeTable} {op : Byte}

/-- A PC-mutating byte decodes to its fields with no operand read (R140). -/
theorem decodeOperands_of_pcMutating {ε : Type} (operand : Nat → Except ε Byte) (hf : familyOf op = .pcMutating) :
    decodeOperands t op operand = .ok (.pcReserved (op.extractLsb' 6 2) (op.extractLsb' 0 4)) := by
  rw [decodeOperands, hf]

/-- A direct-effect byte in no row of the table matches nothing, and no operand is read (R67, R68). -/
theorem decodeOperands_of_unlisted_direct {ε : Type} (operand : Nat → Except ε Byte) (hf : familyOf op = .direct)
    (hop : op ∉ t.directBytes) : decodeOperands t op operand = .ok (.unsupportedDirect op) := by
  simp only [OpcodeTable.directBytes, List.mem_cons, List.not_mem_nil, or_false, not_or] at hop
  simp [decodeOperands, hf, hop]

theorem selectAlu_of_unlisted (hop : op ∉ t.aluBytes) (a b : RegIdx) : selectAlu t op a b = .unsupportedAlu op a b := by
  simp only [OpcodeTable.aluBytes, List.mem_cons, List.not_mem_nil, or_false, not_or] at hop
  simp [selectAlu, hop]

/-- A byte of the ALU family decodes to what the exact match selects on the two registers after it (R67, R84). -/
theorem decodeWith_of_alu {i : Instr} {e e' : Byte} (hf : familyOf op = .alu)
    (hsel : selectAlu t op (regOf e) (regOf e') = i) (tail : List Byte) :
    decodeWith t (op :: e :: e' :: tail) = .ok i := by
  rw [decodeWith_of_withTwoBytes (decodeOperands_of_alu hf), hsel]

theorem isUnsupportedAlu_iff : t.isUnsupportedAlu op = true ↔ familyOf op = .alu ∧ op ∉ t.aluBytes := by
  simp [OpcodeTable.isUnsupportedAlu, familyOf_eq_alu]

theorem isUnsupportedDirect_iff : t.isUnsupportedDirect op = true ↔ familyOf op = .direct ∧ op ∉ t.directBytes := by
  simp [OpcodeTable.isUnsupportedDirect, familyOf_eq_direct]

end

section
variable {t : OpcodeTable} (ht : t.meetsSource = true)
include ht

/-- The exact match of the whole byte finds each ALU instruction, since the table's bytes differ (R66, R67). -/
theorem selectAlu_listed :
    (∀ a b, selectAlu t t.add a b = .add a b) ∧ (∀ a b, selectAlu t t.sub a b = .sub a b)
      ∧ (∀ a b, selectAlu t t.mul a b = .mul a b) ∧ (∀ a b, selectAlu t t.div a b = .div a b)
      ∧ (∀ a b, selectAlu t t.mod a b = .mod a b) ∧ (∀ a b, selectAlu t t.inc a b = .inc a)
      ∧ ∀ a b, selectAlu t t.dec a b = .dec a := by
  have differ : t.aluBytes.Nodup := (meetsSource_spec ht).1.of_append_right
  simp only [OpcodeTable.aluBytes, List.nodup_cons, List.mem_cons, List.not_mem_nil, or_false, not_or] at differ
  simp [selectAlu, differ, eq_comm]

/-- The exact match of the whole byte finds each direct-effect instruction, and its format reads the operands (R67,
R85). -/
theorem decodeOperands_listed_direct {ε : Type} :
    (∀ f : Nat → Except ε Byte, decodeOperands t t.nop f = .ok .nop)
      ∧ (∀ f : Nat → Except ε Byte, decodeOperands t t.hlt f = .ok .hlt)
      ∧ (∀ f : Nat → Except ε Byte, decodeOperands t t.push f = withRegister f .push)
      ∧ (∀ f : Nat → Except ε Byte, decodeOperands t t.pop f = withRegister f .pop)
      ∧ (∀ f : Nat → Except ε Byte, decodeOperands t t.prn f = withRegister f .prn)
      ∧ ∀ f : Nat → Except ε Byte, decodeOperands t t.ldi f = withTwoBytes f fun r v => .ldi (regOf r) v := by
  have differ : t.directBytes.Nodup := (meetsSource_spec ht).1.of_append_left
  have direct : ∀ b ∈ t.directBytes, familyOf b = .direct := fun _ => direct_byte ht
  simp only [OpcodeTable.directBytes, List.nodup_cons, List.mem_cons, List.not_mem_nil, or_false, not_or,
    forall_eq_or_imp, forall_eq] at differ direct
  simp [decodeOperands, direct, differ, eq_comm]

/-- The decoder undoes the encoder: each row's byte selects its format, and the format reads the operand bytes back. -/
theorem decodeWith_encodeWith {i : Instr} (hw : i.wf t = true) (next : Byte) (tail : List Byte) :
    decodeWith t (encodeWith t i ++ next :: tail) = .ok i := by
  obtain ⟨add, sub, mul, div, mod, inc, dec⟩ := selectAlu_listed ht
  obtain ⟨nop, hlt, push, pop, prn, ldi⟩ := decodeOperands_listed_direct ht (ε := DecodeRejection)
  have listed : ∀ b ∈ t.aluBytes, familyOf b = .alu := fun _ => alu_byte ht
  simp only [OpcodeTable.aluBytes, List.forall_mem_cons] at listed
  obtain ⟨addAlu, subAlu, mulAlu, divAlu, modAlu, incAlu, decAlu, -⟩ := listed
  cases i with
  | nop => exact nop _
  | hlt => exact hlt _
  | push r => simpa [encodeWith] using decodeWith_of_withRegister push (regByte r) (next :: tail)
  | pop r => simpa [encodeWith] using decodeWith_of_withRegister pop (regByte r) (next :: tail)
  | prn r => simpa [encodeWith] using decodeWith_of_withRegister prn (regByte r) (next :: tail)
  | ldi r imm => simpa [encodeWith] using decodeWith_of_withTwoBytes ldi (regByte r) imm (next :: tail)
  | add a b => exact decodeWith_of_alu addAlu (by simp [add]) (next :: tail)
  | sub a b => exact decodeWith_of_alu subAlu (by simp [sub]) (next :: tail)
  | mul a b => exact decodeWith_of_alu mulAlu (by simp [mul]) (next :: tail)
  | div a b => exact decodeWith_of_alu divAlu (by simp [div]) (next :: tail)
  | mod a b => exact decodeWith_of_alu modAlu (by simp [mod]) (next :: tail)
  | inc a => exact decodeWith_of_alu incAlu (by simp [inc]) tail
  | dec a => exact decodeWith_of_alu decAlu (by simp [dec]) tail
  | pcReserved aa dddd =>
    refine (decodeOperands_of_pcMutating _ (familyOf_pcByte aa dddd)).trans ?_
    rw [pcByte_aa, pcByte_dddd]
  | unsupportedAlu op a b =>
    obtain ⟨hf, hop⟩ := isUnsupportedAlu_iff.1 hw
    exact decodeWith_of_alu hf (by simp [selectAlu_of_unlisted hop]) (next :: tail)
  | unsupportedDirect op =>
    obtain ⟨hf, hop⟩ := isUnsupportedDirect_iff.1 hw
    exact decodeOperands_of_unlisted_direct _ hf hop

end

/-- Settles O1: by the cases of the instruction, each of one format. INC and DEC take the byte that follows as the
second operand byte the Loop reads (R84). -/
theorem decodeOfEncodeIsTheInstruction : Obligations.DecodeOfEncodeIsTheInstruction :=
  fun _ ht _ hw next tail => decodeWith_encodeWith ht hw next tail

/-- Settles O2: with two bytes after the opcode no operand read fails, and what the decoder answers has the byte it
read. -/
theorem everyOpcodeByteDecodes : Obligations.EveryOpcodeByteDecodes := by
  intro t op e1 e2 tail
  obtain ⟨i, hi⟩ := decodeOperands_total (t := t) (op := op) (f := listByte (op :: e1 :: e2 :: tail)) rfl rfl
  obtain ⟨wf, opcode, -⟩ := decodeOperands_spec hi
  exact ⟨i, hi, wf, opcode⟩

/-- Settles O4: bits 5 and 4 give the family, and a byte that no exact match of its family finds is of its class. -/
theorem unlistedBytesDecodeToTheirClass : Obligations.UnlistedBytesDecodeToTheirClass := by
  refine fun op e1 e2 tail => ⟨fun h5 hop => ?alu, fun h5 h4 => ?pcMutating, fun h5 h4 hop => ?direct⟩
  case alu => exact decodeWith_of_alu (familyOf_eq_alu.2 h5) (selectAlu_of_unlisted hop _ _) tail
  case pcMutating => exact decodeOperands_of_pcMutating _ (familyOf_eq_pcMutating.2 ⟨h5, h4⟩)
  case direct => exact decodeOperands_of_unlisted_direct _ (familyOf_eq_direct.2 ⟨h5, h4⟩) hop

/-- Settles O5: the table's lists are written out, and its constraints are decidable. -/
theorem opcodeTableHoldsTheLs8Bytes : Obligations.OpcodeTableHoldsTheLs8Bytes :=
  ⟨rfl, rfl, opcodeTable_meetsSource⟩

theorem unsupportedAlu_count :
    ((List.range 256).filter fun n => opcodeTable.isUnsupportedAlu (trunc8 n)).length = 121 := by decide +kernel

theorem unsupportedDirect_count :
    ((List.range 256).filter fun n => opcodeTable.isUnsupportedDirect (trunc8 n)).length = 58 := by decide +kernel

/-- Settles O6, by counting over the 256 bytes. -/
theorem opcodeSpaceCounts : Obligations.OpcodeSpaceCounts :=
  ⟨by decide +kernel, unsupportedAlu_count, by decide +kernel, unsupportedDirect_count⟩

/-- Settles O7, by running the decoder on each word. -/
theorem sampleWordsDecode : Obligations.SampleWordsDecode :=
  ⟨rfl, rfl, rfl, rfl, rfl, rfl, rfl, rfl, rfl⟩

/-- The two high bits of a PC-mutating byte are its field AA (R60). -/
theorem pcByte_toNat_div (aa : BitVec 2) (dddd : BitVec 4) : (pcByte aa dddd).toNat / 64 = aa.toNat := by
  rw [← operandCount_eq, operandCount, pcByte_aa]

/-- Settles O9: each row's length is its byte's AA plus one, and a PC-mutating byte is followed by AA zeros. -/
theorem encodingIsOnePlusOperandCountLong : Obligations.EncodingIsOnePlusOperandCountLong := by
  intro i notAlu notDirect
  cases i with
  | pcReserved aa dddd =>
    rw [Instr.opcode, pcByte_toNat_div, encode, encodeWith, List.length_cons, List.length_replicate, Nat.add_comm]
  | unsupportedAlu op a b => exact absurd rfl (notAlu op a b)
  | unsupportedDirect op => exact absurd rfl (notDirect op)
  | _ => simp [encode, encodeWith, Instr.opcode, opcodeTable]

end Sys2Proof

/-! # Proofs: one step, by what its opcode byte reads (spec/40_loop.md) -/

namespace Sys2Proof

/-- The bytes that select no operand format: every PC-mutating byte, NOP, HLT and the unsupported direct-effect bytes.
They decode alone, whatever reads the operands (R85, R140). -/
theorem decodeOperands_of_no_operand {op : Byte} (h5 : op.getLsbD 5 = false)
    (hop : op.getLsbD 4 = true ∨ op ∉ [opcodeTable.push, opcodeTable.pop, opcodeTable.prn, opcodeTable.ldi]) :
    ∃ i, ∀ {ε : Type} (operand : Nat → Except ε Byte), decodeOperands opcodeTable op operand = .ok i := by
  by_cases h4 : op.getLsbD 4 = true
  · exact ⟨_, fun f => decodeOperands_of_pcMutating f (familyOf_eq_pcMutating.2 ⟨h5, h4⟩)⟩
  have unlisted := hop.resolve_left h4
  by_cases listed : op ∈ opcodeTable.directBytes
  · have noOperand : op = opcodeTable.nop ∨ op = opcodeTable.hlt := by simp_all [OpcodeTable.directBytes]
    obtain rfl | rfl := noOperand
    · exact ⟨.nop, fun _ => rfl⟩
    · exact ⟨.hlt, fun _ => rfl⟩
  · exact ⟨_, fun f => decodeOperands_of_unlisted_direct f (familyOf_eq_direct.2 ⟨h5, by simpa using h4⟩) listed⟩

end Sys2Proof

namespace Sys2Proof.Machine

section
variable {s : State} {op : Byte}

/-- The step reads its operands where the list of bytes stands. -/
theorem operandAt_of_listByte {bytes : List Byte} (code : codeAt s bytes) {k : Nat} {b : Byte}
    (h : listByte bytes k = .ok b) : operandAt s k = .ok b := by
  obtain ⟨inList, rfl⟩ := List.getElem?_eq_some_iff.1 (listByte_ok.1 h)
  exact operandAt_ok.2 (code k inList)

theorem step_of_codeAt {rest : List Byte} {i : Instr} (running : s.status = .running) (code : codeAt s (op :: rest))
    (decoded : decode (op :: rest) = .ok i) : step s = exec i { s with ir := op } :=
  step_of_decode running (code 0 (by simp)) (decodeOperands_mono (fun _ _ => operandAt_of_listByte code) decoded)

/-- A step whose fetch is out of range (R81). -/
theorem step_of_fetch_error (running : s.status = .running) (range : s.mem.size ≤ s.pc) :
    step s = .next (s.raise (.outOfBounds s.pc)) := by
  simp [step, stepWith, running, fetchInstr, read?_eq_none.2 range]

theorem step_of_not_running (h : s.status ≠ .running) : step s = .fault .notRunning := by
  unfold step stepWith
  split
  · contradiction
  · rfl
  · rfl

end

/-- Settles O10: what the list of bytes gives each operand read, memory gives it too. -/
theorem stepRunsTheDecodedInstruction : Obligations.StepRunsTheDecodedInstruction :=
  fun _ _ _ _ running code decoded => step_of_codeAt running code decoded

/-- Settles O11: the fetch is the step's first read, and its fault sets the status alone. -/
theorem fetchOutOfRangeFaults : Obligations.FetchOutOfRangeFaults :=
  fun _ running range => step_of_fetch_error running range

/-- Settles O12: the family alone, which bit 5 chooses, decides that both operands are read. -/
theorem aluFamilyReadsTwoOperandsFirst : Obligations.AluFamilyReadsTwoOperandsFirst :=
  fun _ h5 => readsTwoOperands_of_alu (familyOf_eq_alu.2 h5)

/-- Settles O13: PUSH, POP and PRN are of the format with one operand byte, LDI of one with two, and the other bytes
decode without an operand read. -/
theorem otherFamiliesReadOnlyTheirOperands : Obligations.OtherFamiliesReadOnlyTheirOperands := by
  obtain ⟨-, -, push, pop, prn, ldi⟩ := decodeOperands_listed_direct opcodeTable_meetsSource (ε := Nat)
  refine ⟨⟨readsOneOperand_of_decode push, runsOneRegister_of_decode push⟩,
    ⟨readsOneOperand_of_decode pop, runsOneRegister_of_decode pop⟩,
    ⟨readsOneOperand_of_decode prn, runsOneRegister_of_decode prn⟩,
    ⟨readsTwoOperands_of_decode fun f => ⟨_, ldi f⟩, fun s e v running code => step_of_withTwoBytes ldi running code⟩,
    fun s op running fetched h5 hop => ?_⟩
  obtain ⟨i, decoded⟩ := decodeOperands_of_no_operand h5 hop
  exact ⟨i, decoded _, step_of_decode running fetched (decoded _)⟩

/-- Settles O14: each of the three ways a step goes answers a next state. -/
theorem runningStepAnswersANextState : Obligations.RunningStepAnswersANextState := by
  intro s running
  obtain ⟨t, ht, -⟩ := step_cases running
  exact ⟨t, ht⟩

/-- Settles O15, by the status. -/
theorem noStepOutsideARun : Obligations.NoStepOutsideARun := fun _ => step_of_not_running

end Sys2Proof.Machine

/-! # Proofs: the rest of the ALU family (spec/41_alu.md) -/

namespace Sys2Proof.Machine

/-- A divisor of 0 raises, and the quotient and the remainder are not defined there (R104, R105). -/
theorem exec_of_zero_divisor {s : State} {b : RegIdx} (a : RegIdx) (h : (s.getReg b).toNat = 0) :
    exec (.div a b) s = .next (s.raise .divisionByZero) ∧ exec (.mod a b) s = .next (s.raise .divisionByZero) := by
  have zero : s.getReg b = 0 := BitVec.eq_of_toNat_eq h
  exact ⟨execAlu_of_error (op := .div) (if_pos zero), execAlu_of_error (op := .mod) (if_pos zero)⟩

section
variable {u v : Byte} (h : v.toNat ≠ 0)
include h

theorem aluResult_div : aluResult .div u v = .ok (trunc8 (u.toNat / v.toNat)) :=
  if_neg fun zero => h (by simp [zero])

theorem aluResult_mod : aluResult .mod u v = .ok (trunc8 (u.toNat % v.toNat)) :=
  if_neg fun zero => h (by simp [zero])

end

theorem trunc8_toNat_of_le {n : Nat} {u : Byte} (h : n ≤ u.toNat) : (trunc8 n).toNat = n :=
  (BitVec.toNat_ofNat n 8).trans (Nat.mod_eq_of_lt (Nat.lt_of_le_of_lt h u.isLt))

/-- Settles O19: the quotient is DIV's result where the divisor is not 0, and a byte, so the truncation keeps it. -/
theorem divWritesTheQuotientOrFaults : Obligations.DivWritesTheQuotientOrFaults := by
  have hop : familyOf opcodeTable.div = .alu := by decide
  refine ⟨fun s a b => ⟨fun nonzero => ?_, fun zero => (exec_of_zero_divisor a zero).1⟩, by decide,
    runsTwoRegisters_of_alu hop fun _ _ => rfl, readsTwoOperands_of_alu hop⟩
  obtain ⟨t, run, quotient, frame, pc⟩ :=
    exec_writes_aluResult (i := .div a b) (op := .div) rfl (aluResult_div nonzero)
  exact ⟨t, run, by rw [quotient, trunc8_toNat_of_le (Nat.div_le_self _ _)], frame, pc⟩

/-- Settles O20: the remainder is MOD's result where the divisor is not 0, and a byte, so the truncation keeps it. -/
theorem modWritesTheRemainderOrFaults : Obligations.ModWritesTheRemainderOrFaults := by
  have hop : familyOf opcodeTable.mod = .alu := by decide
  refine ⟨fun s a b => ⟨fun nonzero => ?_, fun zero => (exec_of_zero_divisor a zero).2⟩, by decide,
    runsTwoRegisters_of_alu hop fun _ _ => rfl, readsTwoOperands_of_alu hop⟩
  obtain ⟨t, run, result, frame, pc⟩ :=
    exec_writes_aluResult (i := .mod a b) (op := .mod) rfl (aluResult_mod nonzero)
  have remainder : (t.getReg a).toNat = (s.getReg a).toNat % (s.getReg b).toNat := by
    rw [result, trunc8_toNat_of_le (Nat.mod_le _ _)]
  refine ⟨t, run, ⟨(s.getReg a).toNat / (s.getReg b).toNat, ?_⟩, ?_, frame, pc⟩
  · rw [remainder, Nat.div_add_mod']
  · rw [remainder]
    exact Nat.mod_lt _ (Nat.pos_of_ne_zero nonzero)

/-- Settles O21: the sum is INC's result in every state, and its byte is an ALU byte that selects INC by its first
operand. -/
theorem incAddsOneModulo256 : Obligations.IncAddsOneModulo256 := by
  have hop : familyOf opcodeTable.inc = .alu := by decide
  refine ⟨fun s a => ?_, by decide, runsTwoRegisters_of_alu (mk := fun a _ => .inc a) hop fun _ _ => rfl,
    readsTwoOperands_of_alu hop⟩
  obtain ⟨t, run, sum, frame, pc⟩ := exec_writes_aluResult (i := .inc a) (op := .inc) (b := a) (s := s) rfl rfl
  exact ⟨t, run, by rw [sum, BitVec.toNat_ofNat], frame, pc⟩

/-- Settles O22: the truncated difference is DEC's result in every state, and its byte is an ALU byte that selects DEC
by its first operand. -/
theorem decSubtractsOneModulo256 : Obligations.DecSubtractsOneModulo256 := by
  have hop : familyOf opcodeTable.dec = .alu := by decide
  refine ⟨fun s a => ?_, by decide, runsTwoRegisters_of_alu (mk := fun a _ => .dec a) hop fun _ _ => rfl,
    readsTwoOperands_of_alu hop⟩
  obtain ⟨t, run, difference, frame, pc⟩ := exec_writes_aluResult (i := .dec a) (op := .dec) (b := a) (s := s) rfl rfl
  exact ⟨t, run, by rw [difference, natCast_toNat_truncInt8], frame, pc⟩

/-- Settles O23: the meaning is one fault, the byte reads the family's operands and matches no row of the table, and the
bytes are counted. -/
theorem unsupportedAluByteFaults : Obligations.UnsupportedAluByteFaults := by
  refine ⟨fun _ _ _ _ => rfl, fun op h5 unlisted => ?_, unsupportedAlu_count, by decide⟩
  have hop : familyOf op = .alu := familyOf_eq_alu.2 h5
  exact ⟨runsTwoRegisters_of_alu hop (selectAlu_of_unlisted unlisted), readsTwoOperands_of_alu hop⟩

end Sys2Proof.Machine

/-! # Proofs: PUSH and POP (spec/42_stack.md) -/

namespace Sys2Proof.Machine

/-- The decremented stack pointer, computed in the natural numbers. -/
theorem pushedSp_eq (s : State) : pushedSp s = trunc8 ((s.getReg 7).toNat + 255) :=
  BitVec.eq_of_toNat_eq ((pushedSp_toNat s).trans (BitVec.toNat_ofNat _ 8).symm)

/-- The increment of a POP undoes the decrement of a PUSH, through the wrap too (R120, R121). -/
theorem trunc8_pushedSp_add_one (s : State) : trunc8 ((pushedSp s).toNat + 1) = s.getReg spReg := by
  apply BitVec.eq_of_toNat_eq
  have := (s.getReg spReg).isLt
  rw [trunc8, BitVec.toNat_ofNat, pushedSp_toNat]
  omega

/-- The state after a PUSH that stored, with the memory `m` of its store. -/
def afterPush (s : State) (m : Memory) : State := State.advance { s.setReg spReg (pushedSp s) with mem := m }

section
variable {s : State}

theorem getReg_afterPush (m : Memory) (q : RegIdx) :
    (afterPush s m).getReg q = if q = 7 then pushedSp s else s.getReg q :=
  getReg_setReg s spReg q (pushedSp s)

/-- PUSH in range: the store is at the decremented stack pointer, of the register as it then is (R120, R123). -/
theorem exec_push_of_lt (r : RegIdx) (hw : s.mem.wf = true) (range : (pushedSp s).toNat < s.mem.size) :
    ∃ m, exec (.push r) s = .next (afterPush s m) ∧ m.size = s.mem.size ∧ m.wf = true ∧
      ∀ addr, m.read? addr =
        if addr = (pushedSp s).toNat then some (if r = 7 then pushedSp s else s.getReg r) else s.mem.read? addr := by
  obtain ⟨m, hm⟩ := write?_of_lt ((s.setReg spReg (pushedSp s)).getReg r) range
  obtain ⟨-, size, canonical⟩ := write?_spec hm
  obtain ⟨wf, read⟩ := canonical hw
  exact ⟨m, execPush_of_some hm, size, wf, fun addr => (read addr).trans (by rw [getReg_setReg]; rfl)⟩

theorem exec_push_of_size_le (r : RegIdx) (range : s.mem.size ≤ (pushedSp s).toNat) :
    exec (.push r) s = .next ((s.setReg spReg (pushedSp s)).raise (.outOfBounds (pushedSp s).toNat)) :=
  execPush_of_none range

theorem exec_pop_of_size_le (r : RegIdx) (range : s.mem.size ≤ (s.getReg 7).toNat) :
    exec (.pop r) s = .next (s.raise (.outOfBounds (s.getReg 7).toNat)) :=
  execPop_of_none range

/-- The state after a POP that loaded `v`. -/
def afterPop (s : State) (r : RegIdx) (v : Byte) : State :=
  ((s.setReg r v).setReg spReg (trunc8 (((s.setReg r v).getReg spReg).toNat + 1))).advance

theorem exec_pop_of_some (r : RegIdx) {v : Byte} (h : s.mem.read? (s.getReg 7).toNat = some v) :
    exec (.pop r) s = .next (afterPop s r v) :=
  execPop_of_some h

theorem getReg_afterPop (r : RegIdx) (v : Byte) (q : RegIdx) :
    (afterPop s r v).getReg q =
      if q = 7 then trunc8 ((if r = 7 then v else s.getReg 7).toNat + 1) else if q = r then v else s.getReg q := by
  simp only [afterPop, getReg_advance, getReg_setReg, spReg, eq_comm]

theorem pcAdvanced_iff {s t : State} : pcAdvanced s t ↔ t.pc = s.pc + 1 + operandCount s.ir := by
  rw [pcAdvanced, operandCount_eq]

end

/-- Settles O24: the store of an address in range answers, and reads back at that address alone. -/
theorem pushDecrementsThenStores : Obligations.PushDecrementsThenStores := by
  obtain ⟨-, -, push, -⟩ := decodeOperands_listed_direct opcodeTable_meetsSource (ε := Nat)
  refine ⟨fun s r sp hw hsp range => ?_, by decide, runsOneRegister_of_decode push⟩
  obtain rfl : sp = pushedSp s := hsp.trans (pushedSp_eq s).symm
  obtain ⟨m, run, size, wf, read⟩ := exec_push_of_lt r hw range
  refine ⟨_, run, ?_, fun q hq => ?_, read, size, wf, rfl, rfl, rfl, pcAdvanced_iff.2 rfl⟩
  · rw [getReg_afterPush, if_pos rfl]
  · rw [getReg_afterPush, if_neg hq]

/-- Settles O25: the decrement is made before the store fails, and the fault sets the status alone. -/
theorem pushOutOfRangeKeepsTheDecrement : Obligations.PushOutOfRangeKeepsTheDecrement := by
  intro s r sp hsp range
  obtain rfl : sp = pushedSp s := hsp.trans (pushedSp_eq s).symm
  refine ⟨_, exec_push_of_size_le r range, ?_, fun q hq => ?_, rfl, rfl, rfl, rfl, rfl⟩
  · rw [getReg_raise]
    exact getReg_setReg_same s spReg _
  · rw [getReg_raise]
    exact getReg_setReg_of_ne s _ hq

/-- Settles O26: the increment reads the stack pointer after the load, which for R7 is the loaded byte. -/
theorem popLoadsThenIncrements : Obligations.PopLoadsThenIncrements := by
  obtain ⟨-, -, -, pop, -⟩ := decodeOperands_listed_direct opcodeTable_meetsSource (ε := Nat)
  refine ⟨fun s r v loaded => ?_, by decide, runsOneRegister_of_decode pop⟩
  refine ⟨_, exec_pop_of_some r loaded, fun hr => ⟨?_, ?_⟩, fun hr => ?_, fun q hqr hq => ?_, rfl, rfl, rfl, rfl,
    pcAdvanced_iff.2 rfl⟩
  · rw [getReg_afterPop, if_neg hr, if_pos rfl]
  · rw [getReg_afterPop, if_pos rfl, if_neg hr, trunc8, BitVec.toNat_ofNat]
  · rw [getReg_afterPop, if_pos rfl, if_pos hr, trunc8, BitVec.toNat_ofNat]
  · rw [getReg_afterPop, if_neg hq, if_neg hqr]

/-- Settles O27: the load is POP's first access, and its fault sets the status alone. -/
theorem popOutOfRangeChangesNothing : Obligations.PopOutOfRangeChangesNothing :=
  fun _ r range => exec_pop_of_size_le r range

/-- Settles O28: the POP loads the byte the PUSH stored, which the PUSH left in the register as well, so of all
registers only the stack pointer moves, down and up again. -/
theorem pushThenPopRestores : Obligations.PushThenPopRestores := by
  intro s r hw range
  rw [← show (pushedSp s).toNat = ((s.getReg 7).toNat + 255) % 256 from pushedSp_toNat s] at range
  obtain ⟨m, pushRun, -, -, read⟩ := exec_push_of_lt r hw range
  have sp : (afterPush s m).getReg 7 = pushedSp s := by rw [getReg_afterPush, if_pos rfl]
  have loaded : (afterPush s m).mem.read? ((afterPush s m).getReg 7).toNat = some ((afterPush s m).getReg r) := by
    rw [sp, getReg_afterPush]
    exact (read _).trans (if_pos rfl)
  refine ⟨_, _, pushRun, exec_pop_of_some r loaded, fun q => ?_⟩
  rw [getReg_afterPop]
  split_ifs with hq hr hqr
  · rw [hr, sp, trunc8_pushedSp_add_one, hq, spReg]
  · rw [sp, trunc8_pushedSp_add_one, hq, spReg]
  · rw [hqr, getReg_afterPush, if_neg (hqr ▸ hq)]
  · rw [getReg_afterPush, if_neg hq]

end Sys2Proof.Machine

/-! # Proofs: the instructions without an effect and the unsupported direct-effect bytes (spec/43_direct_effect.md,
spec/44_pc_family.md) -/

namespace Sys2Proof.Machine

theorem exec_nop (s : State) : exec .nop s = .next { s with pc := s.pc + 1 + s.ir.toNat / 64 } := by
  rw [← operandCount_eq]
  rfl

theorem exec_pcReserved (aa : BitVec 2) (dddd : BitVec 4) (s : State) :
    exec (.pcReserved aa dddd) s = .next { s with pc := s.pc + 1 + s.ir.toNat / 64 } := by
  rw [← operandCount_eq]
  rfl

theorem step_of_nop {s : State} (running : s.status = .running) (fetched : s.mem.read? s.pc = some opcodeTable.nop) :
    step s = .next { s with ir := opcodeTable.nop, pc := s.pc + 1 } := by
  have count : opcodeTable.nop.toNat / 64 = 0 := by decide
  rw [step_of_decode running fetched rfl, exec_nop, count]

/-- Settles O29: NOP reads no operand and its meaning is the advance, by one for its byte. -/
theorem nopOnlyAdvances : Obligations.NopOnlyAdvances := ⟨exec_nop, fun _ => step_of_nop⟩

/-- Settles O33: the byte decodes alone to its class, whose meaning is one fault, and the bytes are counted. -/
theorem unsupportedDirectByteFaults : Obligations.UnsupportedDirectByteFaults := by
  refine ⟨fun _ _ => rfl, fun s op running fetched h5 h4 unlisted => ?_, unsupportedDirect_count, by decide⟩
  have hop : familyOf op = .direct := familyOf_eq_direct.2 ⟨h5, h4⟩
  exact step_of_decode running fetched (decodeOperands_of_unlisted_direct _ hop unlisted)

/-- Settles O34: the byte decodes alone to its fields, whose meaning is the advance. -/
theorem reservedByteOnlyAdvances : Obligations.ReservedByteOnlyAdvances := by
  refine ⟨fun s aa dddd => exec_pcReserved aa dddd s, fun s op running fetched h5 h4 => ?_⟩
  have hop : familyOf op = .pcMutating := familyOf_eq_pcMutating.2 ⟨h5, h4⟩
  rw [step_of_decode running fetched (decodeOperands_of_pcMutating _ hop), exec_pcReserved]

end Sys2Proof.Machine

/-! # Proofs: what every step changes and keeps (spec/40_loop.md, spec/60_exceptions.md) -/

namespace Sys2Proof.Machine

section
variable {i : Instr} {s t : State}

/-- The frame of an instruction: what it does apart from its ending. -/
theorem exec_frame (h : exec i s = .next t) :
    t.ir = s.ir ∧ t.mem.size = s.mem.size ∧ (s.mem.wf = true → t.mem.wf = true) ∧
      (t.mem = s.mem ∨ ∃ r, i = .push r) ∧ (t.out = s.out ∨ ∃ r, i = .prn r ∧ t.out = s.out ++ [s.getReg r]) := by
  obtain ⟨t', ht', ir, size, wf, mem, out, -⟩ := exec_spec i s
  cases ht'.symm.trans h
  exact ⟨ir, size, wf, mem, out⟩

/-- The one store of an instruction, PUSH's, is at the decremented stack pointer (R120). -/
theorem read?_of_exec (h : exec i s = .next t) (hw : s.mem.wf = true) {addr : Nat} (other : addr ≠ (pushedSp s).toNat) :
    t.mem.read? addr = s.mem.read? addr := by
  obtain ⟨-, -, -, same | ⟨r, rfl⟩, -⟩ := exec_frame h
  · rw [same]
  · rcases Nat.lt_or_ge (pushedSp s).toNat s.mem.size with range | range
    · obtain ⟨m, run, -, -, read⟩ := exec_push_of_lt r hw range
      cases run.symm.trans h
      exact (read addr).trans (if_neg other)
    · cases (exec_push_of_size_le r range).symm.trans h
      rfl

/-- A step's frame is its instruction's; a read out of range changes neither memory nor the output. -/
theorem step_frame (h : step s = .next t) :
    t.mem.size = s.mem.size ∧ (s.mem.wf = true → t.mem.wf = true) ∧
      (t.mem = s.mem ∨ s.mem.read? s.pc = some opcodeTable.push) ∧
      (t.out = s.out ∨ s.mem.read? s.pc = some opcodeTable.prn ∧ ∃ r, t.out = s.out ++ [s.getReg r]) := by
  obtain ⟨-, hcase⟩ := step_inversion h
  cases hcase with
  | fetch range state => subst state; exact ⟨rfl, id, .inl rfl, .inl rfl⟩
  | operand op addr byte failed range state => subst state; exact ⟨rfl, id, .inl rfl, .inl rfl⟩
  | runs i op byte decoded wf opcode state =>
    obtain ⟨-, size, canonical, mem, out⟩ := exec_frame state
    subst opcode
    refine ⟨size, canonical, mem.imp_right ?_, out.imp_right ?_⟩
    · rintro ⟨r, rfl⟩
      exact byte
    · rintro ⟨r, rfl, appended⟩
      exact ⟨byte, r, appended⟩

theorem read?_of_step (h : step s = .next t) (hw : s.mem.wf = true) {addr : Nat} (other : addr ≠ (pushedSp s).toNat) :
    t.mem.read? addr = s.mem.read? addr := by
  obtain ⟨-, hcase⟩ := step_inversion h
  cases hcase with
  | fetch range state => rw [state, raise_mem]
  | operand op addr' byte failed range state => rw [state, raise_mem]
  | runs i op byte decoded wf opcode state => exact read?_of_exec state hw other

theorem step_ir (h : step s = .next t) : t.ir = (s.mem.read? s.pc).getD s.ir := by
  obtain ⟨-, hcase⟩ := step_inversion h
  cases hcase with
  | fetch range state => rw [state, raise_ir, read?_eq_none.2 range, Option.getD_none]
  | operand op addr byte failed range state => rw [state, raise_ir, byte, Option.getD_some]
  | runs i op byte decoded wf opcode state =>
    obtain ⟨ir, -⟩ := exec_frame state
    rw [ir, byte, Option.getD_some]

theorem not_running_of_eq_raise {k : ErrorKind} (h : t = s.raise k) : t.status ≠ .running := by
  subst h
  nofun

theorem Ending.pc_of_running (ending : Ending i s t) (running : t.status = .running) :
    t.pc = s.pc + 1 + operandCount s.ir := by
  cases ending with
  | advances status pc => exact pc
  | halts instr state => subst state; cases running
  | faults k kind state => exact absurd running (not_running_of_eq_raise state)
  | faultsAfterDecrement r instr range state => exact absurd running (not_running_of_eq_raise state)

/-- A step that ends in RUNNING ran an instruction and advanced by its byte's AA, without wrap (R87). -/
theorem step_running_pc (h : step s = .next t) (running : t.status = .running) :
    ∃ op, s.mem.read? s.pc = some op ∧ t.pc = s.pc + 1 + operandCount op := by
  obtain ⟨-, hcase⟩ := step_inversion h
  cases hcase with
  | fetch range state => exact absurd running (not_running_of_eq_raise state)
  | operand op addr byte failed range state => exact absurd running (not_running_of_eq_raise state)
  | runs i op byte decoded wf opcode state => exact ⟨op, byte, (ending_of_exec state).pc_of_running running⟩

/-- The stack pointer is a byte, so PUSH's fault, the one that follows a write, needs a memory below 256 bytes (R153).
-/
theorem Ending.eq_raise_of_faulted {r : FaultRecord} (ending : Ending i s t) (running : s.status = .running)
    (size : 256 ≤ s.mem.size) (faulted : t.status = .faulted r) : ∃ k, t = s.raise k := by
  cases ending with
  | advances status pc => exact absurd (faulted.symm.trans (status.trans running)) nofun
  | halts instr state => subst state; cases faulted
  | faults k kind state => exact ⟨k, state⟩
  | faultsAfterDecrement q instr range state =>
    have := (pushedSp s).isLt
    omega

/-- With at least 256 bytes of memory every fault of a step sets `ir` and raises, and does nothing else (R153). -/
theorem step_faulted_eq_raise {r : FaultRecord} (h : step s = .next t) (size : 256 ≤ s.mem.size)
    (faulted : t.status = .faulted r) : ∃ op k, t = State.raise { s with ir := op } k := by
  obtain ⟨running, hcase⟩ := step_inversion h
  cases hcase with
  | fetch range state => exact ⟨s.ir, _, state⟩
  | operand op addr byte failed range state => exact ⟨op, _, state⟩
  | runs i op byte decoded wf opcode state =>
    exact ⟨op, (ending_of_exec state).eq_raise_of_faulted running size faulted⟩

/-- No part of a step reads the output: not the fetch, not the operand reads, and not the instruction (R29). -/
theorem step_out (h : step s = .next t) :
    ∃ emitted, t.out = s.out ++ emitted ∧
      ∀ earlier, step { s with out := earlier } = .next { t with out := earlier ++ emitted } := by
  obtain ⟨running, hcase⟩ := step_inversion h
  cases hcase with
  | fetch range state =>
    refine ⟨[], by simp [state], fun earlier => ?_⟩
    rw [state, List.append_nil]
    exact step_of_fetch_error (s := { s with out := earlier }) running range
  | operand op addr byte failed range state =>
    refine ⟨[], by simp [state], fun earlier => ?_⟩
    rw [state, List.append_nil]
    exact step_of_operand_error (s := { s with out := earlier }) running byte failed
  | runs i op byte decoded wf opcode state =>
    obtain ⟨emitted, appended, anyOut⟩ := exec_out state
    refine ⟨emitted, appended, fun earlier => ?_⟩
    exact (step_of_decode (s := { s with out := earlier }) running byte decoded).trans (anyOut earlier)

end

/-- Settles O35: of the ways a step ends, only the advance leaves the status RUNNING. -/
theorem advanceDependsOnTheOpcodeByteOnly : Obligations.AdvanceDependsOnTheOpcodeByteOnly := by
  intro s t h running
  obtain ⟨op, fetched, pc⟩ := step_running_pc h running
  exact ⟨op, fetched, by rw [pc, operandCount_eq]⟩

/-- Settles O37: the fetch sets `ir`, and no instruction writes it. -/
theorem irHoldsTheFetchedByte : Obligations.IrHoldsTheFetchedByte := fun _ _ => step_ir

/-- Settles O38: of all instructions only PUSH stores, and it stores one byte. -/
theorem onlyPushWritesMemory : Obligations.OnlyPushWritesMemory := by
  intro s t hw h
  obtain ⟨size, -, mem, -⟩ := step_frame h
  exact ⟨size, mem.resolve_left, fun addr other => read?_of_step h hw (by rwa [pushedSp_toNat])⟩

/-- Settles O39: of all instructions only PRN emits. -/
theorem onlyPrnWritesOutput : Obligations.OnlyPrnWritesOutput := by
  intro s t h
  obtain ⟨-, -, -, out⟩ := step_frame h
  exact out

/-- Settles O40: a step that halts fetched HLT, and HLT reads no operand that could fault before it halts. -/
theorem onlyHltHalts : Obligations.OnlyHltHalts := by
  refine fun s t h => ⟨fun halted => (step_halted h halted).1, fun fetched => ?_⟩
  obtain ⟨running, -⟩ := step_inversion h
  cases (step_of_decode running fetched (decodeOperands_hlt _)).symm.trans h
  rfl

/-- Settles O41: the step and its instruction do the same under any earlier output. -/
theorem outputIsNeverRead : Obligations.OutputIsNeverRead := fun _ _ => step_out

/-- Settles O42: with at least 256 bytes the faulted state is one `raise` from the state with the fetched `ir`. -/
theorem faultsArePrecise : Obligations.FaultsArePrecise := by
  intro s t r size h faulted
  obtain ⟨op, k, rfl⟩ := step_faulted_eq_raise h size faulted
  cases faulted
  exact ⟨rfl, rfl, rfl⟩

/-- Settles O43: the operand byte is read before the store, and the next fetch reads the memory the store left. -/
theorem storeIsSeenByTheNextFetch : Obligations.StoreIsSeenByTheNextFetch := by
  intro s t e sp hw running code hsp range h
  obtain rfl : sp = pushedSp s := hsp.trans (pushedSp_eq s).symm
  obtain ⟨-, -, push, -⟩ := decodeOperands_listed_direct opcodeTable_meetsSource (ε := Nat)
  have runs : step s = exec (.push (regOf e)) { s with ir := opcodeTable.push } :=
    runsOneRegister_of_decode push s e running code
  obtain ⟨m, run, -, -, read⟩ := exec_push_of_lt (s := { s with ir := opcodeTable.push }) (regOf e) hw range
  cases h.symm.trans (runs.trans run)
  have stored : (afterPush { s with ir := opcodeTable.push } m).mem.read? (pushedSp s).toNat =
      some ((afterPush { s with ir := opcodeTable.push } m).getReg (regOf e)) := by
    rw [getReg_afterPush]
    exact (read _).trans (if_pos rfl)
  have count : operandCount opcodeTable.push = 1 := by decide
  refine ⟨running, congrArg (s.pc + 1 + ·) count, rfl, stored, fun u next atStore => ?_⟩
  rw [step_ir next, atStore, stored, Option.getD_some]
  rfl

end Sys2Proof.Machine

/-! # Proofs: the machine's invariant under a step (spec/20_memory.md, spec/60_exceptions.md) -/

namespace Sys2Proof.Machine

section
variable {s t : State} {k : ErrorKind}

/-- What a fault's kind says is about the memory's size, the pc and `ir` alone. -/
theorem kindDescribes_congr (size : t.mem.size = s.mem.size) (pc : t.pc = s.pc) (ir : t.ir = s.ir) :
    kindDescribes k t ↔ kindDescribes k s := by
  cases k <;> simp [kindDescribes, size, pc, ir]

theorem inv_of_not_faulted (size : 1 ≤ s.mem.size) (wf : s.mem.wf = true) (h : ∀ r, s.status ≠ .faulted r) : s.Inv :=
  ⟨size, wf, fun r hr => absurd hr (h r)⟩

theorem inv_raise (size : 1 ≤ s.mem.size) (wf : s.mem.wf = true) (describes : kindDescribes k s) : (s.raise k).Inv := by
  refine ⟨size, wf, fun r hr => ?_⟩
  cases hr
  exact ⟨rfl, rfl, (kindDescribes_congr rfl rfl rfl).2 describes⟩

/-- The fault an instruction of the byte in `ir` takes by its class or its operands describes the state (R151). -/
theorem kindDescribes_of_raises {i : Instr} (wf : i.wf opcodeTable = true) (opcode : i.opcode opcodeTable = s.ir)
    (h : raises i s k) : kindDescribes k s := by
  cases i with
  | div a b =>
    obtain ⟨rfl, -⟩ := h
    exact .inl opcode.symm
  | mod a b =>
    obtain ⟨rfl, -⟩ := h
    exact .inr opcode.symm
  | pop r =>
    obtain ⟨addr, rfl, range, -⟩ := h
    exact range
  | unsupportedAlu op a b =>
    obtain rfl : k = .unsupportedAluOp op := h
    exact ⟨opcode, opcode ▸ wf⟩
  | unsupportedDirect op =>
    obtain rfl : k = .unsupportedOpcode op s.pc := h
    exact ⟨opcode, rfl, opcode ▸ wf⟩
  | _ => exact False.elim h

/-- Each ending keeps the invariant: the advance and the halt leave no record, and each fault describes its state. -/
theorem inv_of_exec {i : Instr} (running : s.status = .running) (size : 1 ≤ s.mem.size) (canonical : s.mem.wf = true)
    (wf : i.wf opcodeTable = true) (opcode : i.opcode opcodeTable = s.ir) (h : exec i s = .next t) : t.Inv := by
  obtain ⟨-, sizeKept, wfKept, -⟩ := exec_frame h
  cases ending_of_exec h with
  | advances status pc =>
    exact inv_of_not_faulted (sizeKept ▸ size) (wfKept canonical) (by simp [status, running])
  | halts instr state =>
    subst state
    exact inv_of_not_faulted size canonical nofun
  | faults k kind state =>
    subst state
    exact inv_raise size canonical (kindDescribes_of_raises wf opcode kind)
  | faultsAfterDecrement r instr range state =>
    subst state
    exact inv_raise (s := s.setReg spReg (pushedSp s)) size canonical range

theorem inv_of_step (hinv : s.Inv) (h : step s = .next t) : t.Inv := by
  obtain ⟨size, canonical, -⟩ := hinv
  obtain ⟨running, hcase⟩ := step_inversion h
  cases hcase with
  | fetch range state =>
    subst state
    exact inv_raise size canonical range
  | operand op addr byte failed range state =>
    subst state
    exact inv_raise (s := { s with ir := op }) size canonical range
  | runs i op byte decoded wf opcode state =>
    exact inv_of_exec (s := { s with ir := op }) running size canonical wf opcode state

end

/-- Settles O44, by the three ways a step goes: both reads out of range record the address, and an instruction ends in
one of its four ways. -/
theorem everyStepKeepsTheMachineInvariant : Obligations.EveryStepKeepsTheMachineInvariant :=
  fun _ _ => inv_of_step

end Sys2Proof.Machine

/-! # Proofs: the canonical form of memory (spec/20_memory.md) -/

namespace Sys2Proof.Machine

theorem cellsRead_cons_same (a : Nat) (v : Byte) (rest : List Host.Cell) : cellsRead ((a, v) :: rest) a = v := by
  simp [cellsRead]

theorem cellsRead_cons_of_lt {a addr : Nat} (v : Byte) (rest : List Host.Cell) (h : a < addr) :
    cellsRead ((a, v) :: rest) addr = cellsRead rest addr := by
  simp [cellsRead, Nat.not_lt.2 h.le, h.ne']

section
variable {size : Nat}

/-- The first cell of a canonical list is not blank, so a list that reads the same there begins there or before. -/
theorem le_of_cellsRead_head {lo a a' : Nat} {v v' : Byte} {rest rest' : List Host.Cell}
    (hw : cellsWf size lo ((a, v) :: rest) = true)
    (read : cellsRead ((a, v) :: rest) a = cellsRead ((a', v') :: rest') a) : a' ≤ a := by
  obtain ⟨-, -, notBlank, -⟩ := cellsWf_cons.1 hw
  by_contra later
  rw [cellsRead_cons_same, cellsRead, if_pos (Nat.lt_of_not_le later)] at read
  exact notBlank read

theorem cells_ext {cells : List Host.Cell} : ∀ {lo lo' : Nat} {cells' : List Host.Cell}, cellsWf size lo cells = true →
    cellsWf size lo' cells' = true → (∀ addr, addr < size → cellsRead cells addr = cellsRead cells' addr) →
    cells = cells' := by
  induction cells with
  | nil =>
    intro lo lo' cells' _ hw' same
    cases cells' with
    | nil => rfl
    | cons c' rest' =>
      obtain ⟨-, inRange, notBlank, -⟩ := cellsWf_cons.1 hw'
      exact absurd ((same c'.1 inRange).trans (cellsRead_cons_same _ _ _)).symm notBlank
  | cons c rest ih =>
    intro lo lo' cells' hw hw' same
    obtain ⟨a, v⟩ := c
    obtain ⟨-, inRange, notBlank, restWf⟩ := cellsWf_cons.1 hw
    cases cells' with
    | nil => exact absurd ((cellsRead_cons_same a v rest).symm.trans (same a inRange)) notBlank
    | cons c' rest' =>
      obtain ⟨a', v'⟩ := c'
      obtain ⟨-, inRange', -, restWf'⟩ := cellsWf_cons.1 hw'
      obtain rfl : a = a' :=
        Nat.le_antisymm (le_of_cellsRead_head hw' (same a' inRange').symm) (le_of_cellsRead_head hw (same a inRange))
      obtain rfl : v = v' := by simpa [cellsRead_cons_same] using same a inRange
      rw [ih restWf restWf' fun addr haddr => ?_]
      rcases Nat.lt_or_ge a addr with after | before
      · simpa [cellsRead_cons_of_lt, after] using same addr haddr
      · rw [cellsRead_below restWf (by omega), cellsRead_below restWf' (by omega)]

end

/-- Settles O48: a write in range puts one cell in its place, and the list of cells stays canonical. -/
theorem readGivesTheMostRecentWrite : Obligations.ReadGivesTheMostRecentWrite := by
  intro m m' addr v hw hwrite
  obtain ⟨-, -, canonical⟩ := write?_spec hwrite
  exact canonical hw

/-- Settles O50: the canonical form has one list of cells for what memory reads. -/
theorem memoriesThatReadTheSameAreEqual : Obligations.MemoriesThatReadTheSameAreEqual := by
  intro m m' hw hw' size same
  obtain ⟨n, cells⟩ := m
  obtain ⟨n', cells'⟩ := m'
  obtain rfl : n = n' := size
  obtain rfl : cells = cells' := cells_ext hw hw' fun addr inRange => by
    simpa [Memory.read?, inRange] using same addr
  rfl

end Sys2Proof.Machine

/-! # Proofs: construction and the host's operations (spec/70_reset_and_hazards.md) -/

namespace Sys2Proof.Machine

section
variable {s t : State}

theorem loadProgram_of_le (idle : s.status ≠ .running) {bytes : List Nat} {start : Nat} (isByte : ∀ b ∈ bytes, b < 256)
    (fits : start + bytes.length ≤ s.mem.size) :
    loadProgram s bytes start = .next { s with mem := storeBytes s.mem start (bytes.map trunc8) } := by
  have accepted : bytes.any (fun b => decide (256 ≤ b)) = false := by simpa using isByte
  simp [loadProgram, whenIdle_of_idle idle, accepted, Nat.not_lt.2 fits]

theorem loadProgram_of_lt (idle : s.status ≠ .running) {bytes : List Nat} {start : Nat} (isByte : ∀ b ∈ bytes, b < 256)
    (overflow : s.mem.size < start + bytes.length) :
    loadProgram s bytes start = .fault (.hostError .programTooLarge) := by
  have accepted : bytes.any (fun b => decide (256 ≤ b)) = false := by simpa using isByte
  simp [loadProgram, whenIdle_of_idle idle, accepted, overflow]

theorem startRun_of_idle (idle : s.status ≠ .running) :
    startRun s = .next { s with pc := 0, ir := 0, status := .running, out := [] } :=
  whenIdle_of_idle idle _

theorem state_of_startRun (h : startRun s = .next t) :
    t = { s with pc := 0, ir := 0, status := .running, out := [] } := by
  cases answer_of_whenIdle h
  rfl

/-- Everything a load that answers does: it stores the bytes and nothing else. -/
theorem state_of_loadProgram {bytes : List Nat} {start : Nat} (h : loadProgram s bytes start = .next t) :
    t = { s with mem := storeBytes s.mem start (bytes.map trunc8) } := by
  have answered := answer_of_whenIdle h
  split_ifs at answered
  cases answered
  rfl

theorem state_of_hostWrite {addr : Nat} {v : Byte} (h : hostWrite s addr v = .next t) :
    ∃ m, s.mem.write? addr v = some m ∧ t = { s with mem := m } := by
  have answered := answer_of_whenIdle h
  split at answered
  · cases answered
    exact ⟨_, ‹_›, rfl⟩
  · cases answered

/-- The invariant speaks of memory, pc, ir and the status alone. -/
theorem State.Inv.of_same (hinv : s.Inv) (size : t.mem.size = s.mem.size) (wf : t.mem.wf = true) (pc : t.pc = s.pc)
    (ir : t.ir = s.ir) (status : t.status = s.status) : t.Inv := by
  obtain ⟨nonempty, -, record⟩ := hinv
  refine ⟨size ▸ nonempty, wf, fun r hr => ?_⟩
  obtain ⟨recordPc, recordIr, describes⟩ := record r (status ▸ hr)
  exact ⟨recordPc.trans pc.symm, recordIr.trans ir.symm, (kindDescribes_congr size pc ir).2 describes⟩

theorem State.Inv.canonical (hinv : s.Inv) : s.mem.wf = true := hinv.2.1

theorem inv_of_hostSet (hinv : s.Inv) {index value : Nat} (h : hostSet s index value = .next t) : t.Inv := by
  cases answer_of_whenIdle h
  exact hinv.of_same rfl hinv.canonical rfl rfl rfl

theorem inv_of_hostWrite (hinv : s.Inv) {addr : Nat} {v : Byte} (h : hostWrite s addr v = .next t) : t.Inv := by
  obtain ⟨m, stored, rfl⟩ := state_of_hostWrite h
  obtain ⟨-, size, kept⟩ := write?_spec stored
  obtain ⟨wf, -⟩ := kept hinv.canonical
  exact hinv.of_same size wf rfl rfl rfl

theorem inv_of_loadProgram (hinv : s.Inv) {bytes : List Nat} {start : Nat} (h : loadProgram s bytes start = .next t) :
    t.Inv := by
  obtain ⟨size, wf, -⟩ := storeBytes_spec (bytes := bytes.map trunc8) (addr := start) hinv.canonical
  obtain rfl := state_of_loadProgram h
  exact hinv.of_same size wf rfl rfl rfl

/-- The loader's load answers a state only where it was given a program (R174). -/
theorem inv_of_loadSource (hinv : s.Inv) {source : Option (List Nat)} {start : Nat}
    (h : loadSource s source start = .next t) : t.Inv := by
  cases source with
  | none => cases answer_of_whenIdle h
  | some bytes => exact inv_of_loadProgram hinv h

theorem inv_of_startRun (hinv : s.Inv) (h : startRun s = .next t) : t.Inv := by
  obtain ⟨size, canonical, -⟩ := hinv
  obtain rfl := state_of_startRun h
  exact inv_of_not_faulted size canonical nofun

/-- A run is its start and steps, and each keeps the invariant. -/
theorem inv_of_run (hinv : s.Inv) (h : run s = .next t) : t.Inv := by
  unfold run runWith at h
  split at h
  · exact runFor_keeps inv_of_step (inv_of_startRun hinv ‹_›) h
  · cases h
  · cases h

/-- From a pc that is `n` bytes below the end of memory or nearer, `n + 1` steps end a run: each step but the last
advances the pc, and a fetch at the end faults (R91). -/
theorem runFor_ends {n : Nat} : ∀ {s : State}, s.mem.size ≤ s.pc + n →
    ∃ u, runFor (n + 1) s = .next u ∧ u.status ≠ .running := by
  induction n with
  | zero =>
    intro s atEnd
    by_cases running : s.status = .running
    · exact ⟨_, runFor_succ (step_of_fetch_error running atEnd), nofun⟩
    · exact ⟨s, runFor_of_not_running running, running⟩
  | succ n ih =>
    intro s near
    by_cases running : s.status = .running
    · obtain ⟨t, ht, -⟩ := step_cases running
      rw [runFor_succ ht]
      by_cases goesOn : t.status = .running
      · obtain ⟨op, -, pc⟩ := step_running_pc ht goesOn
        obtain ⟨size, -⟩ := step_frame ht
        exact ih (by omega)
      · exact ⟨t, runFor_of_not_running goesOn, goesOn⟩
    · exact ⟨s, runFor_of_not_running running, running⟩

/-- Over NOPs a run does nothing but advance the pc (R182). -/
theorem runFor_nops {n : Nat} : ∀ {s : State}, s.status = .running → s.ir = opcodeTable.nop →
    (∀ k, k < n → s.mem.read? (s.pc + k) = some opcodeTable.nop) → runFor n s = .next { s with pc := s.pc + n } := by
  induction n with
  | zero => exact fun _ _ _ => rfl
  | succ n ih =>
    intro s running ir nops
    have stepped : step s = .next { s with pc := s.pc + 1 } := by
      rw [step_of_nop running (nops 0 (Nat.succ_pos n)), ← ir]
    have rest : ∀ k, k < n → s.mem.read? (s.pc + 1 + k) = some opcodeTable.nop := fun k hk => by
      rw [Nat.add_assoc, Nat.add_comm 1 k, nops (k + 1) (by omega)]
    rw [runFor_succ stepped, ih (s := { s with pc := s.pc + 1 }) running ir rest, Nat.add_assoc, Nat.add_comm 1 n]

end

section
variable (c : Config)

theorem read?_construct {addr : Nat} (h : addr < c.memSize) : (State.construct c).mem.read? addr = some 0 :=
  if_pos h

theorem getReg_construct_sp : (State.construct c).getReg 7 = c.spInit :=
  Vector.getElem_push_eq

theorem getReg_construct_of_lt {r : RegIdx} (h : r.toNat < 7) : (State.construct c).getReg r = c.initRegs[r.toNat] :=
  Vector.getElem_push_lt h

theorem inv_construct : (State.construct c).Inv := inv_of_not_faulted c.memSize_pos rfl nofun

end

/-- Settles O45: a new memory lists no cell, and no fault is recorded. -/
theorem resetMeetsTheMachineInvariant : Obligations.ResetMeetsTheMachineInvariant :=
  ⟨inv_construct, inv_of_not_faulted Config.hardware.memSize_pos rfl nofun⟩

/-- Settles O46, by the operation that answered: the first four change registers or memory bytes alone, and the last two
begin with a status that records no fault. -/
theorem hostOperationsKeepTheMachineInvariant : Obligations.HostOperationsKeepTheMachineInvariant := by
  intro s t hinv answered
  obtain ⟨index, value, set⟩ | ⟨addr, v, write⟩ | ⟨bytes, start, load⟩ | ⟨source, start, load⟩ | start | whole :=
    answered
  · exact inv_of_hostSet hinv set
  · exact inv_of_hostWrite hinv write
  · exact inv_of_loadProgram hinv load
  · exact inv_of_loadSource hinv load
  · exact inv_of_startRun hinv start
  · exact inv_of_run hinv whole

/-- Settles O47: a run starts with pc 0, and every step that goes on raises the pc. -/
theorem everyRunEndsWithinMemorySizePlusOneSteps : Obligations.EveryRunEndsWithinMemorySizePlusOneSteps := by
  intro s t h
  obtain rfl := state_of_startRun h
  exact runFor_ends (Nat.le_add_left _ _)

/-- Settles O52: a load that fits stores its bytes one after another, and one that does not fit stores none. -/
theorem loadProgramCopiesTheBytes : Obligations.LoadProgramCopiesTheBytes := by
  intro s bytes start idle isByte
  refine ⟨fun fits hw => ?_, fun overflow => loadProgram_of_lt idle isByte overflow⟩
  obtain ⟨size, wf, read⟩ := storeBytes_spec (bytes := bytes.map trunc8) (addr := start) hw
  rw [List.length_map] at read
  refine ⟨_, loadProgram_of_le idle isByte fits, rfl, size, wf, fun addr => ?_⟩
  rw [read fits addr, List.getElem?_map]

/-- Settles O53: outside a run the start answers. -/
theorem runStartResetsFourFields : Obligations.RunStartResetsFourFields := fun _ => startRun_of_idle

/-- Settles O54: SP_INIT follows the seven INIT_REGS, which on this hardware are zero. -/
theorem constructionAndResetValues : Obligations.ConstructionAndResetValues := by
  refine ⟨fun c => ⟨fun addr h => read?_construct c h, getReg_construct_sp c, fun r h => getReg_construct_of_lt c h,
    rfl, rfl, rfl, rfl, rfl⟩, startRun_of_idle nofun, rfl, rfl, by decide, rfl, rfl, rfl, rfl⟩

/-- Settles O55: the bytes below `start` are still the zeros of construction, which are NOPs. -/
theorem programLoadedHigherIsReachedByNops : Obligations.ProgramLoadedHigherIsReachedByNops := by
  intro c bytes start isByte fits
  obtain ⟨-, -, read⟩ := storeBytes_spec (m := (State.construct c).mem) (bytes := bytes.map trunc8) (addr := start) rfl
  rw [List.length_map] at read
  have idle : (State.construct c).status ≠ .running := nofun
  refine ⟨_, _, _, loadProgram_of_le idle isByte fits, startRun_of_idle idle,
    runFor_nops rfl rfl fun k hk => ?_, by simp⟩
  have zero : (State.construct c).mem.read? k = some 0 := read?_construct c (by omega)
  rw [Nat.zero_add, read fits k, if_neg (by omega), zero]
  rfl

end Sys2Proof.Machine

/-! # Proofs: the output lines and the trace (spec/60_exceptions.md) -/

namespace Sys2Proof.Machine

section
variable (v : Byte)

/-- The three lengths of a byte's numeral (R161). -/
theorem decimalDigits_cases :
    (v.toNat < 10 ∧ decimalDigits v = [v.toNat])
      ∨ (10 ≤ v.toNat ∧ v.toNat < 100 ∧ decimalDigits v = [v.toNat / 10, v.toNat % 10])
      ∨ (100 ≤ v.toNat ∧ decimalDigits v = [v.toNat / 100, v.toNat / 10 % 10, v.toNat % 10]) := by
  unfold decimalDigits
  split_ifs <;> simp <;> omega

theorem decimalDigits_value : (decimalDigits v).foldl (fun n d => 10 * n + d) 0 = v.toNat := by
  obtain ⟨-, digits⟩ | ⟨-, -, digits⟩ | ⟨-, digits⟩ := decimalDigits_cases v <;>
    simp only [digits, List.foldl_cons, List.foldl_nil] <;> omega

theorem decimalDigits_lt_ten : ∀ d ∈ decimalDigits v, d < 10 := by
  have := v.isLt
  obtain ⟨low, digits⟩ | ⟨-, high, digits⟩ | ⟨-, digits⟩ := decimalDigits_cases v <;>
    simp [digits] <;> omega

theorem decimalDigits_ne_nil : decimalDigits v ≠ [] := by
  obtain ⟨-, digits⟩ | ⟨-, -, digits⟩ | ⟨-, digits⟩ := decimalDigits_cases v <;> simp [digits]

/-- Two digits begin with the tens of a number from 10 on, and three with the hundreds of one from 100 on. -/
theorem eq_zero_of_decimalDigits_head (h : (decimalDigits v).head? = some 0) : decimalDigits v = [0] := by
  obtain ⟨-, digits⟩ | ⟨low, -, digits⟩ | ⟨low, digits⟩ := decimalDigits_cases v
  · rw [digits, List.head?_cons, Option.some.injEq] at h
    rw [digits, h]
  · rw [digits, List.head?_cons, Option.some.injEq] at h
    omega
  · rw [digits, List.head?_cons, Option.some.injEq] at h
    omega

end

theorem hexDigits_toNat (v : Byte) :
    (hexDigits v).1.toNat = v.toNat / 16 ∧ (hexDigits v).2.toNat = v.toNat % 16 := by
  have := v.isLt
  simp only [hexDigits, BitVec.extractLsb'_toNat, Nat.shiftRight_eq_div_pow]
  omega

theorem traceReport_bytes (s : State) {k : Nat} (h : k < 3) :
    (traceReport s).bytes[k]? = some ((s.mem.read? (s.pc + k)).map hexDigits) := by
  interval_cases k <;> rfl

theorem traceReport_regs (s : State) (r : RegIdx) : (traceReport s).regs[r.toNat] = hexDigits (s.getReg r) :=
  Vector.getElem_map ..

/-- Settles O56: each of the three lengths of the numeral gives the byte, and only zero's begins with a zero. -/
theorem outputLineIsTheDecimalNumeral : Obligations.OutputLineIsTheDecimalNumeral := fun v =>
  ⟨decimalDigits_value v, decimalDigits_lt_ten v, decimalDigits_ne_nil v, eq_zero_of_decimalDigits_head v, rfl⟩

/-- Settles O57: the trace is values computed from the state, and during a run it is refused. -/
theorem traceReportsThreeBytesAndTheRegisters : Obligations.TraceReportsThreeBytesAndTheRegisters := by
  refine fun s => ⟨fun running => by simp [trace, whenIdle, running], fun idle => ?_⟩
  refine ⟨traceReport s, whenIdle_of_idle idle _, rfl, rfl, fun k hk => ?_, fun r => ?_⟩
  · refine ⟨_, traceReport_bytes s hk, fun outside => ?_, fun b hb => ?_⟩
    · rw [read?_eq_none.2 outside, Option.map_none]
    · exact ⟨hexDigits b, by rw [hb, Option.map_some], hexDigits_toNat b⟩
  · rw [traceReport_regs]
    exact hexDigits_toNat _

end Sys2Proof.Machine
